-- ==== Sys2Proof/Word.lean ====
section
/-! DEFINITION. The words of the machine: bytes, 16-bit words, the 4-, 8- and 12-bit operand fields and the framebuffer's bits. -/

namespace Sys2Proof

/-- One byte: a register V[i], a timer, a memory location, the immediate kk (10_state.md R21, 30_encoding.md R82). -/
abbrev Byte := BitVec 8

/-- A 16-bit value: PC, I, a stack entry, an opcode (10_state.md R23, R25, R28; 30_encoding.md R81). -/
abbrev Word := BitVec 16

/-- A 4-bit field: the row count n and a key code 0 to 15 (30_encoding.md R82, 10_state.md R31). -/
abbrev Nibble := BitVec 4

/-- A 4-bit register field x or y; every value names a register (10_state.md R21). -/
abbrev Reg := BitVec 4

/-- The 12-bit address field nnn (30_encoding.md R82, R84). -/
abbrev Addr12 := BitVec 12

/-- The framebuffer: 2048 one-bit cells, bit k is the cell of column k mod 64 and row k div 64 (10_state.md R30,
the signal frame[2047:0] of R36; assumption 8, DESIGN CHOICE). -/
abbrev Frame := BitVec 2048

/-- The flag register VF, V[15] (10_state.md R22). -/
abbrev regF : Reg := 0xF

end Sys2Proof
end

