-- ==== Sys2Proof/WellFormed.lean ====
section
/-! DEFINITION. Which instructions are well formed: those an opcode stands for. The operand fields carry their widths in their types; what
is left to check is the operand of SYS (30_encoding.md R88) and the opcode of UNDEF (R87). -/

namespace Sys2Proof

/-- The SYS space: every opcode 0nnn but the two that are CLS and RET (30_encoding.md R88). -/
def isSysOperand (nnn : Addr12) : Bool :=
  nnn != 0x0E0#12 && nnn != 0x0EE#12

/-- The opcodes that decode to UNDEF, as 30_encoding.md R87 lists them: 5xyN and 9xyN with N not 0; 8xyN with N in 8 to D and F; Exkk and
Fxkk with kk none of the listed function bytes. -/
def isUndefOpcode (w : Word) : Bool :=
  let top := w.extractLsb' 12 4
  let fn := w.extractLsb' 0 4
  let kk := w.extractLsb' 0 8
  (top == 0x5#4 && fn != 0#4) ||
  (top == 0x9#4 && fn != 0#4) ||
  (top == 0x8#4 && [0x8#4, 0x9#4, 0xA#4, 0xB#4, 0xC#4, 0xD#4, 0xF#4].contains fn) ||
  (top == 0xE#4 && !([0x9E#8, 0xA1#8].contains kk)) ||
  (top == 0xF#4 && !([0x07#8, 0x0A#8, 0x15#8, 0x18#8, 0x1E#8, 0x29#8, 0x33#8, 0x55#8, 0x65#8].contains kk))

/-- An instruction is well formed when some opcode decodes to it (30_encoding.md R85, R87, R88). -/
def wellFormed : Instr → Bool
  | .cls => true
  | .ret => true
  | .sys nnn => isSysOperand nnn
  | .jmp _ => true
  | .call _ => true
  | .seImm _ _ => true
  | .sneImm _ _ => true
  | .seReg _ _ => true
  | .ldImm _ _ => true
  | .addImm _ _ => true
  | .ldReg _ _ => true
  | .or _ _ => true
  | .and _ _ => true
  | .xor _ _ => true
  | .addReg _ _ => true
  | .sub _ _ => true
  | .shr _ _ => true
  | .subn _ _ => true
  | .shl _ _ => true
  | .sneReg _ _ => true
  | .ldI _ => true
  | .jpV0 _ => true
  | .rnd _ _ => true
  | .drw _ _ _ => true
  | .skp _ => true
  | .sknp _ => true
  | .ldVxDT _ => true
  | .ldVxK _ => true
  | .ldDTVx _ => true
  | .ldSTVx _ => true
  | .addI _ => true
  | .ldF _ => true
  | .ldB _ => true
  | .storeRegs _ => true
  | .loadRegs _ => true
  | .undef w => isUndefOpcode w

end Sys2Proof
end

