-- ==== Sys2Proof/Decode.lean ====
section
/-! DEFINITION. Decoding (30_encoding.md R81, R82, R85), the opcode table (R86) and the encoder. Decoding an opcode is total (R85); a byte list
too short to hold one is rejected by name. -/

namespace Sys2Proof

/-- Field b0 = opcode[15:12] (30_encoding.md R81). -/
def fieldB0 (w : Word) : Nibble := w.extractLsb' 12 4

/-- Field x = opcode[11:8] (30_encoding.md R82). -/
def fieldX (w : Word) : Reg := w.extractLsb' 8 4

/-- Field y = opcode[7:4] (30_encoding.md R82). -/
def fieldY (w : Word) : Reg := w.extractLsb' 4 4

/-- Field n = b3 = opcode[3:0] (30_encoding.md R81, R82). -/
def fieldN (w : Word) : Nibble := w.extractLsb' 0 4

/-- Field kk = opcode[7:0] (30_encoding.md R82). -/
def fieldKK (w : Word) : Byte := w.extractLsb' 0 8

/-- Field nnn = opcode[11:0] (30_encoding.md R82). -/
def fieldNNN (w : Word) : Addr12 := w.extractLsb' 0 12

/-- The opcode of the bytes at PC and PC + 1: the byte at the lower address is the upper half (20_memory.md R52). -/
def opcodeOf (hi lo : Byte) : Word := hi ++ lo

/-- The rows 8xyN by their function nibble (30_encoding.md R85, case 0x8). -/
def decode8 (w : Word) : Instr :=
  match (fieldN w).toNat with
  | 0x0 => .ldReg (fieldX w) (fieldY w)
  | 0x1 => .or (fieldX w) (fieldY w)
  | 0x2 => .and (fieldX w) (fieldY w)
  | 0x3 => .xor (fieldX w) (fieldY w)
  | 0x4 => .addReg (fieldX w) (fieldY w)
  | 0x5 => .sub (fieldX w) (fieldY w)
  | 0x6 => .shr (fieldX w) (fieldY w)
  | 0x7 => .subn (fieldX w) (fieldY w)
  | 0xE => .shl (fieldX w) (fieldY w)
  | _ => .undef w

/-- The rows Fxkk by their function byte (30_encoding.md R85, case 0xF). -/
def decodeF (w : Word) : Instr :=
  match (fieldKK w).toNat with
  | 0x07 => .ldVxDT (fieldX w)
  | 0x0A => .ldVxK (fieldX w)
  | 0x15 => .ldDTVx (fieldX w)
  | 0x18 => .ldSTVx (fieldX w)
  | 0x1E => .addI (fieldX w)
  | 0x29 => .ldF (fieldX w)
  | 0x33 => .ldB (fieldX w)
  | 0x55 => .storeRegs (fieldX w)
  | 0x65 => .loadRegs (fieldX w)
  | _ => .undef w

/-- The decode procedure of 30_encoding.md R85: total, and a function of the opcode alone. -/
def decodeOpcode (w : Word) : Instr :=
  match (fieldB0 w).toNat with
  | 0x0 => if w = 0x00E0#16 then .cls else if w = 0x00EE#16 then .ret else .sys (fieldNNN w)
  | 0x1 => .jmp (fieldNNN w)
  | 0x2 => .call (fieldNNN w)
  | 0x3 => .seImm (fieldX w) (fieldKK w)
  | 0x4 => .sneImm (fieldX w) (fieldKK w)
  | 0x5 => if fieldN w = 0#4 then .seReg (fieldX w) (fieldY w) else .undef w
  | 0x6 => .ldImm (fieldX w) (fieldKK w)
  | 0x7 => .addImm (fieldX w) (fieldKK w)
  | 0x8 => decode8 w
  | 0x9 => if fieldN w = 0#4 then .sneReg (fieldX w) (fieldY w) else .undef w
  | 0xA => .ldI (fieldNNN w)
  | 0xB => .jpV0 (fieldNNN w)
  | 0xC => .rnd (fieldX w) (fieldKK w)
  | 0xD => .drw (fieldX w) (fieldY w) (fieldN w)
  | 0xE =>
    if fieldKK w = 0x9E#8 then .skp (fieldX w)
    else if fieldKK w = 0xA1#8 then .sknp (fieldX w)
    else .undef w
  | _ => decodeF w

/-- Why a byte list holds no instruction. -/
inductive DecodeError where
  /-- Fewer than the 2 bytes every instruction has (30_encoding.md R80). Raised by `decode` alone: the machine's fetch always has 2 bytes. -/
  | truncated
  deriving DecidableEq, Repr

/-- Decode the first instruction of a byte list (lowest address first) and return it with the rest of the list. -/
def decode : List Byte → Except DecodeError (Instr × List Byte)
  | hi :: lo :: rest => .ok (decodeOpcode (opcodeOf hi lo), rest)
  | _ => .error .truncated

/-- One row of the opcode map (30_encoding.md R86): an opcode w is the row's operation when w & mask = pattern. -/
structure OpcodeRow where
  mnemonic : String
  mask : Word
  pattern : Word
  build : Word → Instr

/-- The opcode map in the priority order of spec/opcode_table.json (30_encoding.md R86): the first row that matches decides. -/
def opcodeTable : List OpcodeRow :=
  [ ⟨"CLS", 0xFFFF, 0x00E0, fun _ => .cls⟩,
    ⟨"RET", 0xFFFF, 0x00EE, fun _ => .ret⟩,
    ⟨"SYS", 0xF000, 0x0000, fun w => .sys (fieldNNN w)⟩,
    ⟨"JMP", 0xF000, 0x1000, fun w => .jmp (fieldNNN w)⟩,
    ⟨"CALL", 0xF000, 0x2000, fun w => .call (fieldNNN w)⟩,
    ⟨"SE_Vx_kk", 0xF000, 0x3000, fun w => .seImm (fieldX w) (fieldKK w)⟩,
    ⟨"SNE_Vx_kk", 0xF000, 0x4000, fun w => .sneImm (fieldX w) (fieldKK w)⟩,
    ⟨"SE_Vx_Vy", 0xF00F, 0x5000, fun w => .seReg (fieldX w) (fieldY w)⟩,
    ⟨"LD_Vx_kk", 0xF000, 0x6000, fun w => .ldImm (fieldX w) (fieldKK w)⟩,
    ⟨"ADD_Vx_kk", 0xF000, 0x7000, fun w => .addImm (fieldX w) (fieldKK w)⟩,
    ⟨"LD_Vx_Vy", 0xF00F, 0x8000, fun w => .ldReg (fieldX w) (fieldY w)⟩,
    ⟨"OR_Vx_Vy", 0xF00F, 0x8001, fun w => .or (fieldX w) (fieldY w)⟩ ] ++
  [ ⟨"AND_Vx_Vy", 0xF00F, 0x8002, fun w => .and (fieldX w) (fieldY w)⟩,
    ⟨"XOR_Vx_Vy", 0xF00F, 0x8003, fun w => .xor (fieldX w) (fieldY w)⟩,
    ⟨"ADD_Vx_Vy", 0xF00F, 0x8004, fun w => .addReg (fieldX w) (fieldY w)⟩,
    ⟨"SUB_Vx_Vy", 0xF00F, 0x8005, fun w => .sub (fieldX w) (fieldY w)⟩,
    ⟨"SHR_Vx", 0xF00F, 0x8006, fun w => .shr (fieldX w) (fieldY w)⟩,
    ⟨"SUBN_Vx_Vy", 0xF00F, 0x8007, fun w => .subn (fieldX w) (fieldY w)⟩,
    ⟨"SHL_Vx", 0xF00F, 0x800E, fun w => .shl (fieldX w) (fieldY w)⟩,
    ⟨"SNE_Vx_Vy", 0xF00F, 0x9000, fun w => .sneReg (fieldX w) (fieldY w)⟩,
    ⟨"LD_I_nnn", 0xF000, 0xA000, fun w => .ldI (fieldNNN w)⟩,
    ⟨"JP_V0_nnn", 0xF000, 0xB000, fun w => .jpV0 (fieldNNN w)⟩,
    ⟨"RND_Vx_kk", 0xF000, 0xC000, fun w => .rnd (fieldX w) (fieldKK w)⟩,
    ⟨"DRW_Vx_Vy_n", 0xF000, 0xD000, fun w => .drw (fieldX w) (fieldY w) (fieldN w)⟩ ] ++
  [ ⟨"SKP_Vx", 0xF0FF, 0xE09E, fun w => .skp (fieldX w)⟩,
    ⟨"SKNP_Vx", 0xF0FF, 0xE0A1, fun w => .sknp (fieldX w)⟩,
    ⟨"LD_Vx_DT", 0xF0FF, 0xF007, fun w => .ldVxDT (fieldX w)⟩,
    ⟨"LD_Vx_K", 0xF0FF, 0xF00A, fun w => .ldVxK (fieldX w)⟩,
    ⟨"LD_DT_Vx", 0xF0FF, 0xF015, fun w => .ldDTVx (fieldX w)⟩,
    ⟨"LD_ST_Vx", 0xF0FF, 0xF018, fun w => .ldSTVx (fieldX w)⟩,
    ⟨"ADD_I_Vx", 0xF0FF, 0xF01E, fun w => .addI (fieldX w)⟩,
    ⟨"LD_F_Vx", 0xF0FF, 0xF029, fun w => .ldF (fieldX w)⟩,
    ⟨"LD_B_Vx", 0xF0FF, 0xF033, fun w => .ldB (fieldX w)⟩,
    ⟨"LD__I__Vx", 0xF0FF, 0xF055, fun w => .storeRegs (fieldX w)⟩,
    ⟨"LD_Vx__I", 0xF0FF, 0xF065, fun w => .loadRegs (fieldX w)⟩,
    ⟨"UNDEF", 0x0000, 0x0000, fun w => .undef w⟩ ]

/-- Decoding by the table: the first row that matches (INDEX.md, 30_encoding.md R86). -/
def tableDecode (w : Word) : Option Instr :=
  (opcodeTable.find? (fun r => w &&& r.mask == r.pattern)).map (fun r => r.build w)

/-- Format A: b0 and the address field (30_encoding.md R83). -/
def formatA (b0 : Nibble) (nnn : Addr12) : Word := b0 ++ nnn

/-- Formats I and X: b0, x and the low byte, an immediate or a function byte (30_encoding.md R83). -/
def formatI (b0 : Nibble) (x : Reg) (low : Byte) : Word := b0 ++ x ++ low

/-- Formats R and D: b0, x, y and the low nibble, a function or a row count (30_encoding.md R83). -/
def formatR (b0 : Nibble) (x y : Reg) (b3 : Nibble) : Word := b0 ++ x ++ y ++ b3

/-- The opcode of an instruction, from the encodings of 30_encoding.md R83, R86. -/
def encode : Instr → Word
  | .cls => 0x00E0#16
  | .ret => 0x00EE#16
  | .sys nnn => formatA 0x0#4 nnn
  | .jmp nnn => formatA 0x1#4 nnn
  | .call nnn => formatA 0x2#4 nnn
  | .seImm x kk => formatI 0x3#4 x kk
  | .sneImm x kk => formatI 0x4#4 x kk
  | .seReg x y => formatR 0x5#4 x y 0x0#4
  | .ldImm x kk => formatI 0x6#4 x kk
  | .addImm x kk => formatI 0x7#4 x kk
  | .ldReg x y => formatR 0x8#4 x y 0x0#4
  | .or x y => formatR 0x8#4 x y 0x1#4
  | .and x y => formatR 0x8#4 x y 0x2#4
  | .xor x y => formatR 0x8#4 x y 0x3#4
  | .addReg x y => formatR 0x8#4 x y 0x4#4
  | .sub x y => formatR 0x8#4 x y 0x5#4
  | .shr x y => formatR 0x8#4 x y 0x6#4
  | .subn x y => formatR 0x8#4 x y 0x7#4
  | .shl x y => formatR 0x8#4 x y 0xE#4
  | .sneReg x y => formatR 0x9#4 x y 0x0#4
  | .ldI nnn => formatA 0xA#4 nnn
  | .jpV0 nnn => formatA 0xB#4 nnn
  | .rnd x kk => formatI 0xC#4 x kk
  | .drw x y n => formatR 0xD#4 x y n
  | .skp x => formatI 0xE#4 x 0x9E#8
  | .sknp x => formatI 0xE#4 x 0xA1#8
  | .ldVxDT x => formatI 0xF#4 x 0x07#8
  | .ldVxK x => formatI 0xF#4 x 0x0A#8
  | .ldDTVx x => formatI 0xF#4 x 0x15#8
  | .ldSTVx x => formatI 0xF#4 x 0x18#8
  | .addI x => formatI 0xF#4 x 0x1E#8
  | .ldF x => formatI 0xF#4 x 0x29#8
  | .ldB x => formatI 0xF#4 x 0x33#8
  | .storeRegs x => formatI 0xF#4 x 0x55#8
  | .loadRegs x => formatI 0xF#4 x 0x65#8
  | .undef w => w

/-- The bytes of an opcode as memory holds them, lowest address first: the upper byte comes first (20_memory.md R52). -/
def opcodeBytes (w : Word) : List Byte := [w.extractLsb' 8 8, w.extractLsb' 0 8]

/-- The bytes of an instruction, lowest address first. -/
def encodeBytes (i : Instr) : List Byte := opcodeBytes (encode i)

/-- What the decoder reads from an instruction whose bits are w, numbered as spec/opcode_table.json numbers them; an instruction has 16
bits (30_encoding.md R80), and bits at and above nbits are 0. -/
def decodeTableWord (nbits w : Nat) : Option Instr :=
  match decode (opcodeBytes (BitVec.ofNat 16 (w % 2 ^ nbits))) with
  | .ok (i, _) => some i
  | .error _ => none

end Sys2Proof
end

