-- ==== Sys2Proof/Config.lean ====
section
/-! DEFINITION. What an implementation fixes (00_scope.md R4) and the one free value of the machine, the random byte. -/

namespace Sys2Proof

/-- MEM_SIZE: Mem has 4096 bytes (00_scope.md R4, 20_memory.md R50). -/
@[simp] abbrev Config.memSize : Nat := 4096

/-- ROM_ORIGIN, the reset vector and the lowest address a program may store to (00_scope.md R4, 20_memory.md R51). -/
@[simp] abbrev Config.romOrigin : Nat := 0x200

/-- The end of the font region, 80 bytes from FONT_BASE = 0 (00_scope.md R4, 20_memory.md R51). -/
@[simp] abbrev Config.fontEnd : Nat := 0x50

/-- MAX_ROM, the largest image loadRom accepts: 3584 bytes (00_scope.md R4, 70_reset_and_hazards.md R262). -/
@[simp] abbrev Config.maxRom : Nat := 3584

/-- WIDTH of the framebuffer (00_scope.md R4). -/
@[simp] abbrev Config.width : Nat := 64

/-- HEIGHT of the framebuffer (00_scope.md R4). -/
@[simp] abbrev Config.height : Nat := 32

/-- SHIFT_SOURCE: which register SHR and SHL read (00_scope.md R4, 41_alu.md R144, D22). -/
inductive ShiftSource where
  | vx
  | vy
  deriving DecidableEq, Repr

/-- SHL_FLAG: which bit of the operand SHL copies to VF (00_scope.md R4, 41_alu.md R140, D35). -/
inductive ShlFlag where
  | lsb
  | msb
  deriving DecidableEq, Repr

/-- LOW_WRITE_POLICY: what a store below ROM_ORIGIN does (00_scope.md R4, 20_memory.md R57, D5). -/
inductive LowWritePolicy where
  | fault
  | allow
  deriving DecidableEq, Repr

/-- The parameters of 00_scope.md R4 that the spec leaves as named arguments of the model, fixed for a whole run (10_state.md R35;
assumption 2, DESIGN CHOICE: they stand in State, where no step changes them). -/
structure Params where
  /-- STACK_DEPTH (D6) -/
  stackDepth : Nat
  /-- SHIFT_SOURCE (D22) -/
  shiftSource : ShiftSource
  /-- SHL_FLAG (D35) -/
  shlFlag : ShlFlag
  /-- LOW_WRITE_POLICY (D5) -/
  lowWrite : LowWritePolicy
  /-- FONT[0..79] (D30) -/
  font : Vector Byte 80
  deriving DecidableEq, Repr

/-- The font table 93_implementation_defined.md G1 recommends as the default of FONT, one row a glyph (assumption 3, DESIGN CHOICE:
the spec leaves FONT open and recommends this table). -/
def Config.defaultFont : Vector Byte 80 :=
  #v[0xF0, 0x90, 0x90, 0x90, 0xF0,
     0x20, 0x60, 0x20, 0x20, 0x70,
     0xF0, 0x10, 0xF0, 0x80, 0xF0,
     0xF0, 0x10, 0xF0, 0x10, 0xF0,
     0x90, 0x90, 0xF0, 0x10, 0x10,
     0xF0, 0x80, 0xF0, 0x10, 0xF0,
     0xF0, 0x80, 0xF0, 0x90, 0xF0,
     0xF0, 0x10, 0x20, 0x40, 0x40,
     0xF0, 0x90, 0xF0, 0x90, 0xF0,
     0xF0, 0x90, 0xF0, 0x10, 0xF0,
     0xF0, 0x90, 0xF0, 0x90, 0x90,
     0xE0, 0x90, 0xE0, 0x90, 0xE0,
     0xF0, 0x80, 0x80, 0x80, 0xF0,
     0xE0, 0x90, 0x90, 0x90, 0xE0,
     0xF0, 0x80, 0xF0, 0x80, 0xF0,
     0xF0, 0x80, 0xF0, 0x80, 0x80]

/-- The parameters at the spec's defaults (00_scope.md R4): STACK_DEPTH 16, SHIFT_SOURCE VX, SHL_FLAG lsb, LOW_WRITE_POLICY fault, FONT
the recommended table G1. -/
def Params.default : Params :=
  { stackDepth := 16, shiftSource := .vx, shlFlag := .lsb, lowWrite := .fault, font := Config.defaultFont }

/-- The FREE VALUE of the machine: the random byte the n-th execution of RND takes, any value 0 to 255 under no law (41_alu.md R141,
60_exceptions.md R239, D16; assumption 4). It has no body, so nothing can be proved of its value. -/
opaque Config.randomByte : Nat → Byte

end Sys2Proof
end

