-- ==== Sys2Proof/Machine/State.lean ====
section
/-! DEFINITION. The state of the machine (10_state.md R20 to R33), the events that reach it and leave it (R36), the reasons a step can stop,
and the state after construction (R37). Plain data. -/

namespace Sys2Proof.Machine

/-- The lifecycle state (10_state.md R32, 70_reset_and_hazards.md R260). -/
inductive RunState where
  | stopped
  | running
  | paused
  deriving DecidableEq, Repr

/-- The causes the fault latch can hold, with the failing address of causes 4 and 5 (60_exceptions.md R220, R230). The address is an
unbounded integer (20_memory.md R68). -/
inductive FaultCause where
  /-- code 1: RET with an empty stack (R221) -/
  | stackUnderflow
  /-- code 2: CALL with a full stack (R222) -/
  | stackOverflow
  /-- code 3: a fetch with PC above 0xFFE (R223) -/
  | fetchOutOfRange
  /-- code 4: a data access above 0xFFF (R224) -/
  | dataOutOfRange (addr : Nat)
  /-- code 5: a store below 0x200 under LOW_WRITE_POLICY = fault (R225) -/
  | writeBelowOrigin (addr : Nat)
  deriving DecidableEq, Repr

/-- The record of the fault latch (10_state.md R33, 60_exceptions.md R230): the cause, the value of PC, and the fetched opcode (absent for a
fetch fault). -/
structure FaultRecord where
  cause : FaultCause
  pc : Word
  opcode : Option Word
  deriving DecidableEq, Repr

/-- What reaches the unit between steps (10_state.md R36, 70_reset_and_hazards.md R277). -/
inductive Event where
  /-- `iclk`: one tick of the instruction clock (00_scope.md R5) -/
  | iclk
  /-- `tclk`: one tick of the 60 Hz timer clock (60_exceptions.md R234) -/
  | tclk
  /-- `pressKey(k)`; k above 15 is refused (60_exceptions.md R237) -/
  | pressKey (k : Nat)
  /-- `releaseKey()` (60_exceptions.md R237) -/
  | releaseKey
  /-- `loadRom(bytes, autoStart = true)` (70_reset_and_hazards.md R262) -/
  | loadRom (bytes : List Byte) (autoStart : Bool := true)
  /-- `start()` (R263) -/
  | start
  /-- `pause()` (R264) -/
  | pause
  /-- `stop()` (R265) -/
  | stop
  /-- `setClockRate(hz)`; the rate is not state (R266) -/
  | setClockRate (hz : Nat)
  /-- `observeFrames(callback)`; registering changes no state of the unit (60_exceptions.md R238) -/
  | observeFrames
  deriving DecidableEq, Repr

/-- What the unit sends to the host (10_state.md R36). -/
inductive Output where
  /-- the frame event: a copy of all 2048 cells (43_display.md R183) -/
  | frame (snapshot : Frame)
  /-- the reply to a refused loadRom (60_exceptions.md R226) -/
  | invalidRom
  deriving DecidableEq, Repr

/-- Memory as the list of the bytes that differ from the reset contents, addresses strictly rising (assumption 9, DESIGN CHOICE; the
form is `Memory.wf`). -/
abbrev Memory := List Host.Cell

/-- Why a step stops with a fault. No constructor: no step of this machine stops. Every fault the spec names is a NEXT state with the fault
latch set (60_exceptions.md R230, R231; assumption 6), so nothing raises a Fault. -/
inductive Fault where
  deriving DecidableEq, Repr

/-- Why a step is refused. -/
inductive Refusal where
  /-- Raised by an arm of `exec` whose instruction has no meaning yet, and by nothing else; safe. Every instruction has its meaning, so no step
  raises it. -/
  | notModelled (mnemonic : String)
  deriving DecidableEq, Repr

/-- The complete state: the eleven fields of 10_state.md R20, then the model's own fields, which hold what the spec makes an argument of the
step (R35) or an output (R36). -/
structure State where
  /-- V[0..15] (R21) -/
  v : Vector Byte 16
  /-- PC (R23) -/
  pc : Word
  /-- I (R25) -/
  index : Word
  /-- DT (R26) -/
  dt : Byte
  /-- ST (R27) -/
  st : Byte
  /-- Stack[SP-1], Stack[SP-2], ..., Stack[0]: the call stack as a list of length SP, the top first (R28; assumption 7) -/
  stack : List Word
  /-- Mem (R29), read through `State.readByte` -/
  mem : Memory
  /-- FB (R30) -/
  fb : Frame
  /-- key: none, or the key held (R31) -/
  key : Option Nibble
  /-- run_state (R32) -/
  runState : RunState
  /-- fault: none, or the record (R33) -/
  fault : Option FaultRecord
  /-- the parameters of 00_scope.md R4, which no step changes (R35; assumption 2) -/
  params : Params
  /-- the model's own: how many random bytes RND has taken (assumption 4) -/
  draws : Nat
  /-- the model's own: the events still to arrive, oldest first (60_exceptions.md R235; assumption 1) -/
  inputs : List Event
  /-- the model's own: what the unit has sent to the host, newest first (assumption 5) -/
  outputs : List Output
  deriving DecidableEq, Repr

/-- The state after construction, the first column of 10_state.md R37: Stopped, PC at 0x200, the font in memory, everything else zero or
empty. The parameters stand at the spec's defaults (00_scope.md R4); draws, inputs and outputs are the model's own (assumptions 1, 2, 4, 5,
DESIGN CHOICE). -/
def State.reset : State :=
  { v := Vector.replicate 16 0
    pc := 0x200
    index := 0
    dt := 0
    st := 0
    stack := []
    mem := []
    fb := 0
    key := none
    runState := .stopped
    fault := none
    params := Params.default
    draws := 0
    inputs := []
    outputs := [] }

/-- What a step or a meaning answers. -/
abbrev Result := Host.Outcome State Fault Refusal

end Sys2Proof.Machine
end

