-- ==== Sys2Proof/Machine/Ops.lean ====
section
/-! DEFINITION. The named operations over registers, PC, the stack, memory and the framebuffer; the fetch; taking a fault. -/

namespace Sys2Proof.Machine

/-! ### Registers -/

/-- Read V[r] (10_state.md R21). -/
def State.getV (s : State) (r : Reg) : Byte := s.v[r.toNat]

/-- Write V[r]; no register is hardwired (10_state.md R21). -/
def State.setV (s : State) (r : Reg) (b : Byte) : State :=
  { s with v := s.v.set r.toNat b }

/-- PC moves on by two bytes, modulo 2^16: the sequential case of 10_state.md R24. -/
def State.advance (s : State) : State := { s with pc := s.pc + 2 }

/-- PC moves past the next instruction when the condition holds, else to it: the skip case of 10_state.md R24. -/
def State.skipIf (s : State) (c : Bool) : State :=
  { s with pc := if c then s.pc + 4 else s.pc + 2 }

/-- SP, the depth counter (10_state.md R28). -/
def State.sp (s : State) : Nat := s.stack.length

/-- Stack[k] for k below SP; entries at SP and above have no meaning (10_state.md R28). -/
def State.stackEntry (s : State) (k : Nat) : Option Word := s.stack.reverse[k]?

/-! ### Memory -/

/-- What an address reads as when memory lists nothing for it: the contents after construction, FONT at 0x000 to 0x04F and 0 elsewhere
(10_state.md R37, 20_memory.md R51). -/
def Memory.unlisted (font : Vector Byte 80) (a : Nat) : Byte :=
  if h : a < 80 then font[a] else 0

/-- Memory in canonical form: addresses strictly rising and inside Mem, no entry equal to what an unlisted address reads as. -/
abbrev Memory.wf (font : Vector Byte 80) (m : Memory) : Prop :=
  m.Pairwise (fun p q => p.1 < q.1) ∧ ∀ c ∈ m, c.1 < Config.memSize ∧ c.2 ≠ Memory.unlisted font c.1

/-- The byte at an address (20_memory.md R59). -/
def Memory.read (font : Vector Byte 80) : Memory → Nat → Byte
  | [], a => Memory.unlisted font a
  | (k, b) :: rest, a => if k = a then b else Memory.read font rest a

/-- One entry put in front, unless it says what an unlisted address reads as. -/
def Memory.listed (font : Vector Byte 80) (a : Nat) (b : Byte) (rest : Memory) : Memory :=
  if b = Memory.unlisted font a then rest else (a, b) :: rest

/-- Store one byte (20_memory.md R59), keeping the canonical form. -/
def Memory.write (font : Vector Byte 80) : Memory → Nat → Byte → Memory
  | [], a, b => Memory.listed font a b []
  | (k, c) :: rest, a, b =>
    if a < k then Memory.listed font a b ((k, c) :: rest)
    else if a = k then Memory.listed font a b rest
    else (k, c) :: Memory.write font rest a b

/-- Store bytes at ascending addresses from a base (20_memory.md R53). -/
def Memory.writeAll (font : Vector Byte 80) (m : Memory) (base : Nat) : List Byte → Memory
  | [] => m
  | b :: rest => Memory.writeAll font (Memory.write font m base b) (base + 1) rest

/-- The cells of a program image placed from address a on, in canonical form for addresses outside the font (20_memory.md R67). -/
def Memory.image (a : Nat) : List Byte → Memory
  | [] => []
  | b :: rest => if b = 0 then Memory.image (a + 1) rest else (a, b) :: Memory.image (a + 1) rest

/-- Memory after loadRom: 0x000 to 0x04F kept, every other byte zero but the image from 0x200 (20_memory.md R67). -/
def Memory.loaded (m : Memory) (bytes : List Byte) : Memory :=
  m.filter (fun c => c.1 < Config.fontEnd) ++ Memory.image Config.romOrigin bytes

/-- The byte of memory at an address (20_memory.md R59). -/
def State.readByte (s : State) (a : Nat) : Byte := Memory.read s.params.font s.mem a

/-- Store bytes at ascending addresses (20_memory.md R53, R57); the checks are the caller's and come first (R58). -/
def State.storeBytes (s : State) (base : Nat) (bytes : List Byte) : State :=
  { s with mem := Memory.writeAll s.params.font s.mem base bytes }

/-- The check of a data read: an address above 0xFFF fails (20_memory.md R56). -/
def readFault (a : Nat) : Option FaultCause :=
  if 0xFFF < a then some (.dataOutOfRange a) else none

/-- The check of a store: an address above 0xFFF fails, and one below 0x200 fails under LOW_WRITE_POLICY = fault (20_memory.md R57). -/
def writeFault (p : LowWritePolicy) (a : Nat) : Option FaultCause :=
  if 0xFFF < a then some (.dataOutOfRange a)
  else if a < Config.romOrigin ∧ p = .fault then some (.writeBelowOrigin a)
  else none

/-- The fault of the lowest failing address among n consecutive ones from a base, computed without wrapping (20_memory.md R58, R68). -/
def firstFault (check : Nat → Option FaultCause) (base n : Nat) : Option FaultCause :=
  (List.range n).findSome? (fun k => check (base + k))

/-! ### Faults -/

/-- TAKING A FAULT (60_exceptions.md R230): nothing changes but the latch, which records the cause, PC and the opcode. Control goes nowhere
and the machine has no return from a fault (R231). -/
def raise (cause : FaultCause) (opcode : Option Word) (s : State) : Result :=
  .next { s with fault := some ⟨cause, s.pc, opcode⟩ }

/-- Run the effect of an instruction after its address checks: the first failing address faults before anything is written (20_memory.md
R58). -/
def checked (failing : Option FaultCause) (opcode : Word) (s : State) (effect : State) : Result :=
  match failing with
  | some cause => raise cause (some opcode) s
  | none => .next effect

/-! ### Fetch -/

/-- The fetch (20_memory.md R52): the opcode of the bytes at PC and PC + 1, or nothing when either lies outside Mem. -/
def State.fetch (s : State) : Option Word :=
  if s.pc.toNat ≤ 0xFFE then some (opcodeOf (s.readByte s.pc.toNat) (s.readByte (s.pc.toNat + 1))) else none

/-! ### Framebuffer -/

/-- The cell index of column px and row py (20_memory.md R60). -/
def cellIndex (px py : Nat) : Nat := px + Config.width * py

/-- The frame with cell k toggled. -/
def toggleCell (fb : Frame) (k : Nat) : Frame := fb ^^^ (1#2048 <<< k)

/-- One sprite bit drawn at a cell (43_display.md R181): a 1 bit toggles the cell and collides when the cell was 1; a 0 bit does nothing. -/
def drawBit (bit : Bool) (k : Nat) (acc : Frame × Bool) : Frame × Bool :=
  if bit then (toggleCell acc.1 k, acc.2 || acc.1.getLsbD k) else acc

/-- One sprite row drawn, left column first; column c is bit 7 - c of the byte and wraps modulo 64 (43_display.md R181, R182). -/
def drawRow (byte : Byte) (vx py : Nat) (acc : Frame × Bool) : Frame × Bool :=
  (List.range 8).foldl
    (fun acc c => drawBit (byte.getLsbD (7 - c)) (cellIndex ((vx + c) % Config.width) py) acc) acc

/-- A sprite drawn, top row first; row r is the byte at base + r and wraps modulo 32 (43_display.md R181). The answer is the frame and whether
any cell went from 1 to 0. -/
def drawSprite (byteAt : Nat → Byte) (base vx vy n : Nat) (fb : Frame) : Frame × Bool :=
  (List.range n).foldl
    (fun acc r => drawRow (byteAt (base + r)) vx ((vy + r) % Config.height) acc) (fb, false)

/-- Emit the frame event: a snapshot of the framebuffer as it is now (43_display.md R183). -/
def State.emitFrame (s : State) : State := { s with outputs := .frame s.fb :: s.outputs }

end Sys2Proof.Machine
end

