-- ==== Sys2Proof/Machine/Flags.lean ====
section
/-! DEFINITION. The values the six flag-writing operations put in VF (10_state.md R22). -/

namespace Sys2Proof.Machine

/-- A condition as a flag value, 1 or 0. -/
def flagOf (c : Bool) : Byte := if c then 1 else 0

/-- Carry of 8xy4: 1 when the true sum exceeds 255 (41_alu.md R136). -/
def carryFlag (a b : Byte) : Byte := flagOf (255 < a.toNat + b.toNat)

/-- No borrow of 8xy5 and 8xy7: 1 when the minuend is at least the subtrahend (41_alu.md R137, R139). -/
def noBorrowFlag (minuend subtrahend : Byte) : Byte := flagOf (subtrahend.toNat ≤ minuend.toNat)

/-- The flag of 8xy6: the operand modulo 2 (41_alu.md R138). -/
def shrFlag (a : Byte) : Byte := a % 2

/-- The flag of 8xyE: the operand modulo 2 as the source tabulates it, or its bit 7 when SHL_FLAG = msb (41_alu.md R140). -/
def shlFlagOf (f : ShlFlag) (a : Byte) : Byte :=
  match f with
  | .lsb => a % 2
  | .msb => a >>> 7

/-- The flag of DRW: 1 when any cell went from 1 to 0, else 0 (43_display.md R181). -/
def collisionFlag (c : Bool) : Byte := flagOf c

/-- Write the flag register VF (10_state.md R22). -/
def State.setFlag (s : State) (b : Byte) : State := s.setV regF b

end Sys2Proof.Machine
end

