-- ==== Sys2Proof/Machine/Operands.lean ====
section
/-! DEFINITION. The operand forms (30_encoding.md R84): immediates are unsigned and zero-extended, registers are direct, memory operands are
I plus a fixed ascending offset; the register ranges, decimal digits, key and random operands. -/

namespace Sys2Proof.Machine

/-- An address field zero-extended to 16 bits (30_encoding.md R84). -/
def zext12 (nnn : Addr12) : Word := nnn.setWidth 16

/-- A byte zero-extended to 16 bits, for the 16-bit sums on PC and I (30_encoding.md R84, 41_alu.md R142). -/
def zext8 (b : Byte) : Word := b.setWidth 16

/-- A key code seen as the 8-bit value it compares and loads as (44_keyboard_timers.md R200, R202). -/
def zextKey (k : Nibble) : Byte := k.setWidth 8

/-- The base address I of a memory operand, as an unbounded integer (20_memory.md R68). -/
def State.base (s : State) : Nat := s.index.toNat

/-- How many registers V[0] to V[x] are (42_index_memory.md R164, R165): the range is inclusive at both ends. -/
def rangeCount (x : Reg) : Nat := x.toNat + 1

/-- The bytes V[0], V[1], up to V[x] (42_index_memory.md R164). -/
def State.regBytes (s : State) (x : Reg) : List Byte :=
  (List.range (rangeCount x)).map (fun k => s.getV (BitVec.ofNat 4 k))

/-- The decimal digits of a byte, hundreds first (42_index_memory.md R163). -/
def decimalDigits (b : Byte) : List Byte :=
  [BitVec.ofNat 8 (b.toNat / 100), BitVec.ofNat 8 (b.toNat / 10 % 10), BitVec.ofNat 8 (b.toNat % 10)]

/-- V[k] loaded from base + k for k = 0 to n - 1, in this order (42_index_memory.md R165). -/
def State.loadRange (s : State) (base n : Nat) : State :=
  (List.range n).foldl (fun t k => t.setV (BitVec.ofNat 4 k) (s.readByte (base + k))) s

/-- I advanced past n bytes, modulo 2^16 (20_memory.md R68). -/
def State.advanceIndex (s : State) (n : Nat) : State :=
  { s with index := s.index + BitVec.ofNat 16 n }

/-- Whether the held key equals V[x]: no key equals nothing, and the whole 8-bit register is compared (44_keyboard_timers.md R200). -/
def State.keyIs (s : State) (x : Reg) : Bool :=
  match s.key with
  | none => false
  | some k => zextKey k == s.getV x

/-- The random input sampled, a fresh free byte (41_alu.md R141; assumption 4). -/
def State.randomByte (s : State) : Byte := Config.randomByte s.draws

/-- The next sample is another one: a fresh draw at every execution (41_alu.md R141). -/
def State.drawn (s : State) : State := { s with draws := s.draws + 1 }

/-- The fetched opcode of an instruction that faults, for the latch (60_exceptions.md R230): decode loses no bit of it. -/
def opcodeFor (i : Instr) : Word := encode i

end Sys2Proof.Machine
end

