-- ==== Sys2Proof/Machine/Alu.lean ====
section
/-! DEFINITION. Register load, arithmetic, logic, shift and random instructions (41_alu.md R130 to R144). Where VF is the destination the write
order decides: the flag first, the result second (R143). -/

namespace Sys2Proof.Machine

/-- The flag written, then the result, then PC moved on (R143). -/
def State.flagThenResult (s : State) (x : Reg) (flag result : Byte) : State :=
  ((s.setFlag flag).setV x result).advance

/-- LD Vx, kk (R130). -/
def execLdImm (x : Reg) (kk : Byte) (s : State) : Result := .next (s.setV x kk).advance

/-- ADD Vx, kk (R131): modulo 256, no flag. -/
def execAddImm (x : Reg) (kk : Byte) (s : State) : Result := .next (s.setV x (s.getV x + kk)).advance

/-- LD Vx, Vy (R132). -/
def execLdReg (x y : Reg) (s : State) : Result := .next (s.setV x (s.getV y)).advance

/-- OR Vx, Vy (R133): no flag. -/
def execOr (x y : Reg) (s : State) : Result := .next (s.setV x (s.getV x ||| s.getV y)).advance

/-- AND Vx, Vy (R134): no flag. -/
def execAnd (x y : Reg) (s : State) : Result := .next (s.setV x (s.getV x &&& s.getV y)).advance

/-- XOR Vx, Vy (R135): no flag. -/
def execXor (x y : Reg) (s : State) : Result := .next (s.setV x (s.getV x ^^^ s.getV y)).advance

/-- ADD Vx, Vy (R136): both operands are read before any write; the carry goes to VF, then the sum to Vx. -/
def execAddReg (x y : Reg) (s : State) : Result :=
  .next (s.flagThenResult x (carryFlag (s.getV x) (s.getV y)) (s.getV x + s.getV y))

/-- SUB Vx, Vy (R137): VF is 1 when there is no borrow. -/
def execSub (x y : Reg) (s : State) : Result :=
  .next (s.flagThenResult x (noBorrowFlag (s.getV x) (s.getV y)) (s.getV x - s.getV y))

/-- SUBN Vx, Vy (R139): the reverse difference, still into Vx. -/
def execSubn (x y : Reg) (s : State) : Result :=
  .next (s.flagThenResult x (noBorrowFlag (s.getV y) (s.getV x)) (s.getV y - s.getV x))

/-- A shift by one (R138, R140, R144): under SHIFT_SOURCE = VX the flag is written first and Vx is read again for the result; under VY the operand
Vy is read once before any write. -/
def State.shifted (s : State) (x y : Reg) (flag result : Byte → Byte) : State :=
  match s.params.shiftSource with
  | .vx =>
    let t := s.setFlag (flag (s.getV x))
    (t.setV x (result (t.getV x))).advance
  | .vy => s.flagThenResult x (flag (s.getV y)) (result (s.getV y))

/-- SHR Vx (R138, R144): logical shift right by one. -/
def execShr (x y : Reg) (s : State) : Result :=
  .next (s.shifted x y shrFlag (fun b => b >>> 1))

/-- SHL Vx (R140, R144): shift left by one, truncated to 8 bits; the flag bit is the parameter SHL_FLAG (with VY and msb together: assumption 11,
DEDUCED). -/
def execShl (x y : Reg) (s : State) : Result :=
  .next (s.shifted x y (shlFlagOf s.params.shlFlag) (fun b => b <<< 1))

/-- RND Vx, kk (R141): a fresh random byte ANDed with kk. -/
def execRnd (x : Reg) (kk : Byte) (s : State) : Result :=
  .next (s.setV x (s.randomByte &&& kk)).drawn.advance

end Sys2Proof.Machine
end

