-- ==== Sys2Proof/Machine/ControlFlow.lean ====
section
/-! DEFINITION. The control-flow instructions and UNDEF (40_control_flow.md R110 to R119). -/

namespace Sys2Proof.Machine

/-- RET (R110): pop the address of the matching CALL and go past it; StackUnderflow on an empty stack. -/
def execRet (s : State) : Result :=
  match s.stack with
  | [] => raise .stackUnderflow (some (opcodeFor .ret)) s
  | a :: rest => .next { s with stack := rest, pc := a + 2 }

/-- SYS nnn (R111): a completed step that changes nothing; nnn has no effect. -/
def execSys (_nnn : Addr12) (s : State) : Result := .next s

/-- JMP nnn (R112). -/
def execJmp (nnn : Addr12) (s : State) : Result := .next { s with pc := zext12 nnn }

/-- CALL nnn (R113): push the address of this CALL and go to nnn; StackOverflow on a full stack. -/
def execCall (nnn : Addr12) (s : State) : Result :=
  if s.sp < s.params.stackDepth then
    .next { s with stack := s.pc :: s.stack, pc := zext12 nnn }
  else raise .stackOverflow (some (opcodeFor (.call nnn))) s

/-- SE Vx, kk (R114). -/
def execSeImm (x : Reg) (kk : Byte) (s : State) : Result := .next (s.skipIf (s.getV x == kk))

/-- SNE Vx, kk (R115). -/
def execSneImm (x : Reg) (kk : Byte) (s : State) : Result := .next (s.skipIf (s.getV x != kk))

/-- SE Vx, Vy (R116). -/
def execSeReg (x y : Reg) (s : State) : Result := .next (s.skipIf (s.getV x == s.getV y))

/-- SNE Vx, Vy (R117). -/
def execSneReg (x y : Reg) (s : State) : Result := .next (s.skipIf (s.getV x != s.getV y))

/-- JP V0, nnn (R118): the sum is not reduced to 12 bits. -/
def execJpV0 (nnn : Addr12) (s : State) : Result :=
  .next { s with pc := zext12 nnn + zext8 (s.getV 0) }

/-- UNDEF (R119): PC moves on and nothing else happens. -/
def execUndef (_opcode : Word) (s : State) : Result := .next s.advance

end Sys2Proof.Machine
end

