-- ==== Sys2Proof/Machine/Display.lean ====
section
/-! DEFINITION. The display instructions (43_display.md R180 to R183). -/

namespace Sys2Proof.Machine

/-- CLS (R180): every cell 0, and one frame event of the blank frame. -/
def execCls (s : State) : Result := .next { s with fb := 0 }.advance.emitFrame

/-- DRW Vx, Vy, n (R181): the coordinates and I are read before any write, the addresses are checked first, the flag is written last, and one frame
event carries the frame after all rows. -/
def execDrw (x y : Reg) (n : Nibble) (s : State) : Result :=
  let drawn := drawSprite s.readByte s.base (s.getV x).toNat (s.getV y).toNat n.toNat s.fb
  checked (firstFault readFault s.base n.toNat) (opcodeFor (.drw x y n)) s
    ({ s with fb := drawn.1 }.setFlag (collisionFlag drawn.2)).advance.emitFrame

end Sys2Proof.Machine
end

