-- ==== Sys2Proof/Machine/IndexMemory.lean ====
section
/-! DEFINITION. The index-register and memory instructions (42_index_memory.md R160 to R165). -/

namespace Sys2Proof.Machine

/-- LD I, nnn (R160). -/
def execLdI (nnn : Addr12) (s : State) : Result := .next { s with index := zext12 nnn }.advance

/-- ADD I, Vx (R161): modulo 2^16, no flag. -/
def execAddI (x : Reg) (s : State) : Result :=
  .next { s with index := s.index + zext8 (s.getV x) }.advance

/-- LD F, Vx (R162): the whole register times 5. -/
def execLdF (x : Reg) (s : State) : Result :=
  .next { s with index := zext8 (s.getV x) * 5 }.advance

/-- LD B, Vx (R163): the three decimal digits, hundreds at I; all three addresses are checked first. -/
def execLdB (x : Reg) (s : State) : Result :=
  checked (firstFault (writeFault s.params.lowWrite) s.base 3) (opcodeFor (.ldB x)) s
    (s.storeBytes s.base (decimalDigits (s.getV x))).advance

/-- LD [I], Vx (R164): V[0] to V[x] stored from I on, and I advanced past them; all addresses are checked first. -/
def execStoreRegs (x : Reg) (s : State) : Result :=
  checked (firstFault (writeFault s.params.lowWrite) s.base (rangeCount x)) (opcodeFor (.storeRegs x)) s
    ((s.storeBytes s.base (s.regBytes x)).advanceIndex (rangeCount x)).advance

/-- LD Vx, [I] (R165): V[0] to V[x] loaded from I on, and I advanced past them; all addresses are checked first. -/
def execLoadRegs (x : Reg) (s : State) : Result :=
  checked (firstFault readFault s.base (rangeCount x)) (opcodeFor (.loadRegs x)) s
    ((s.loadRange s.base (rangeCount x)).advanceIndex (rangeCount x)).advance

end Sys2Proof.Machine
end

