-- ==== Sys2Proof/Machine/KeyTimer.lean ====
section
/-! DEFINITION. The keyboard and timer instructions (44_keyboard_timers.md R200 to R205). -/

namespace Sys2Proof.Machine

/-- SKP Vx (R200): skip when the held key equals V[x]. -/
def execSkp (x : Reg) (s : State) : Result := .next (s.skipIf (s.keyIs x))

/-- SKNP Vx (R201): the exact complement of SKP. -/
def execSknp (x : Reg) (s : State) : Result := .next (s.skipIf (!s.keyIs x))

/-- LD Vx, DT (R203). -/
def execLdVxDT (x : Reg) (s : State) : Result := .next (s.setV x s.dt).advance

/-- LD Vx, K (R202): hold while no key is held (a step that changes nothing: 00_scope.md R6, assumption 13); else load the key. -/
def execLdVxK (x : Reg) (s : State) : Result :=
  match s.key with
  | none => .next s
  | some k => .next (s.setV x (zextKey k)).advance

/-- LD DT, Vx (R204). -/
def execLdDTVx (x : Reg) (s : State) : Result := .next { s with dt := s.getV x }.advance

/-- LD ST, Vx (R205). -/
def execLdSTVx (x : Reg) (s : State) : Result := .next { s with st := s.getV x }.advance

end Sys2Proof.Machine
end

