-- ==== Sys2Proof/Machine/Lifecycle.lean ====
section
/-! DEFINITION. The timer unit (60_exceptions.md R234) and the host's events: keys (R237) and the lifecycle commands (70_reset_and_hazards.md R260
to R267). None of them can fail a step; a refused command changes nothing. -/

namespace Sys2Proof.Machine

/-- A counter decremented, never below 0 (60_exceptions.md R234, 41_alu.md R142). -/
def countDown (b : Byte) : Byte := if b = 0 then 0 else b - 1

/-- One tick of the timer clock (60_exceptions.md R234): both counters count down while Running, also while a fault is latched (R231); in Paused
and Stopped nothing happens. -/
def timerTick (s : State) : State :=
  match s.runState with
  | .running => { s with dt := countDown s.dt, st := countDown s.st }
  | .paused => s
  | .stopped => s

/-- pressKey(k) (60_exceptions.md R237): the last write wins, in every run state; k above 15 is refused and changes nothing. -/
def pressKey (k : Nat) (s : State) : State :=
  if k ≤ 15 then { s with key := some (BitVec.ofNat 4 k) } else s

/-- releaseKey() (60_exceptions.md R237). -/
def releaseKey (s : State) : State := { s with key := none }

/-- The reset of the CPU state that stop and an accepted loadRom share (10_state.md R37): V, I, DT, ST zero, the stack empty, PC at 0x200, the fault
latch cleared. -/
def resetCpu (s : State) : State :=
  { s with
    v := Vector.replicate 16 0, pc := 0x200, index := 0, dt := 0, st := 0, stack := [], fault := none }

/-- loadRom(bytes, autoStart) (70_reset_and_hazards.md R262): an image of more than 3584 bytes is refused with InvalidRom and changes nothing else
(60_exceptions.md R226); otherwise the second column of 10_state.md R37. FB and key are kept. -/
def loadRom (bytes : List Byte) (autoStart : Bool) (s : State) : State :=
  if bytes.length ≤ Config.maxRom then
    { resetCpu s with
      mem := Memory.loaded s.mem bytes, runState := if autoStart then .running else .paused }
  else { s with outputs := .invalidRom :: s.outputs }

/-- start() (70_reset_and_hazards.md R263). -/
def start (s : State) : State := { s with runState := .running }

/-- pause() (70_reset_and_hazards.md R264): Running becomes Paused; from Paused and Stopped a no-op. -/
def pause (s : State) : State :=
  match s.runState with
  | .running => { s with runState := .paused }
  | .paused => s
  | .stopped => s

/-- stop() (70_reset_and_hazards.md R265): the CPU reset, FB cleared without a frame event, memory and key kept. -/
def stop (s : State) : State := { resetCpu s with fb := 0, runState := .stopped }

/-- setClockRate(hz) (70_reset_and_hazards.md R266): pause, then start; the rate is not state of the unit. -/
def setClockRate (_hz : Nat) (s : State) : State := start (pause s)

/-- observeFrames(callback) (60_exceptions.md R238): registering changes no state of the unit. -/
def observeFrames (s : State) : State := s

end Sys2Proof.Machine
end

