-- ==== Sys2Proof/Machine/Tick.lean ====
section
/-! DEFINITION. The instruction tick (fetch, decode, execute), the delivery of one event, and where a test places an instruction. -/

namespace Sys2Proof.Machine

/-- Whether instruction ticks take steps: Running and no fault latched (70_reset_and_hazards.md R260, 60_exceptions.md R231). -/
def State.ticking (s : State) : Bool := s.runState == .running && s.fault.isNone

/-- One tick of the instruction clock (00_scope.md R5, R6): fetch, decode and execute exactly one instruction. A fetch outside Mem faults before
decode (60_exceptions.md R223). Where no step is taken the tick has no effect (R231, 70_reset_and_hazards.md R260). -/
def instrTick (s : State) : Result :=
  if s.ticking then
    match s.fetch with
    | none => raise .fetchOutOfRange none s
    | some w => exec (decodeOpcode w) s
  else .next s

/-- One event delivered (10_state.md R36). -/
def deliver (e : Event) (s : State) : Result :=
  match e with
  | .iclk => instrTick s
  | .tclk => .next (timerTick s)
  | .pressKey k => .next (pressKey k s)
  | .releaseKey => .next (releaseKey s)
  | .loadRom bytes autoStart => .next (loadRom bytes autoStart s)
  | .start => .next (start s)
  | .pause => .next (pause s)
  | .stop => .next (stop s)
  | .setClockRate hz => .next (setClockRate hz s)
  | .observeFrames => .next (observeFrames s)

/-- The next event delivered: the oldest one of the inputs, or an instruction tick where none is listed (60_exceptions.md R235; assumption 1). -/
def nextEvent (s : State) : Result :=
  match s.inputs with
  | [] => instrTick s
  | e :: rest => deliver e { s with inputs := rest }

/-- Where the next fetch can read an instruction: PC, or the reset vector when PC cannot be fetched from (assumption 10). -/
def fetchablePc (s : State) : Word := if s.pc.toNat ≤ 0xFFE then s.pc else 0x200

/-- The state with an opcode stored where the next step fetches it, and with the fetch enabled: Running, no fault latched, an instruction tick
next (assumption 10). -/
def placeOpcode (w : Word) (s : State) : State :=
  { s with
    pc := fetchablePc s
    mem := Memory.writeAll s.params.font s.mem (fetchablePc s).toNat (opcodeBytes w)
    runState := .running
    fault := none
    inputs := [] }

end Sys2Proof.Machine
end

