-- ==== Sys2Proof/Machine/Step.lean ====
section
/-! DEFINITION. One step of the machine, and the placing of an instruction where the next step fetches. -/

namespace Sys2Proof.Machine

/-- One step: the next event of State.inputs, or an instruction tick where none is listed. -/
def step (s : State) : Host.Outcome State Fault Refusal := Sys2Proof.Machine.nextEvent s

/-- The state with the instruction of bits w (numbered as spec/opcode_table.json numbers them, 0 at and above nbits) where the next step fetches. -/
def State.withFetchWord (s : State) (nbits w : Nat) : State :=
  Sys2Proof.Machine.placeOpcode (BitVec.ofNat 16 (w % 2 ^ nbits)) s

end Sys2Proof.Machine
end

