-- ==== Sys2Proof/Machine/Listing.lean ====
section
/-! DEFINITION. The disassembly utility (30_encoding.md R91 to R93): the assembly column of R86 and the listing. -/

namespace Sys2Proof.Machine

/-- One hexadecimal digit, upper case. -/
def hexChar (n : Nat) : Char := if n < 10 then Char.ofNat (48 + n) else Char.ofNat (55 + n)

/-- The low k hexadecimal digits of a number, most significant first. -/
def hexDigits : Nat → Nat → List Char
  | 0, _ => []
  | k + 1, n => hexDigits k (n / 16) ++ [hexChar (n % 16)]

/-- A numeral of k hexadecimal digits with its 0x (R91). -/
def hexNumeral (k n : Nat) : String := "0x" ++ String.ofList (hexDigits k n)

/-- A register name, V and one hexadecimal digit (10_state.md R21, 30_encoding.md R91). -/
def regName (x : Reg) : String := "V" ++ String.ofList [hexChar x.toNat]

/-- A mnemonic with its one operand. -/
def text1 (mnemonic a : String) : String := mnemonic ++ " " ++ a

/-- A mnemonic with its two operands, destination first (R91). -/
def text2 (mnemonic a b : String) : String := text1 mnemonic a ++ ", " ++ b

/-- The assembly text of an instruction (30_encoding.md R86, R91, R92; assumption 14). -/
def assembly : Instr → String
  | .cls => "CLS"
  | .ret => "RET"
  | .sys nnn => text1 "SYS" (hexNumeral 3 nnn.toNat)
  | .jmp nnn => text1 "JMP" (hexNumeral 3 nnn.toNat)
  | .call nnn => text1 "CALL" (hexNumeral 3 nnn.toNat)
  | .seImm x kk => text2 "SE" (regName x) (hexNumeral 2 kk.toNat)
  | .sneImm x kk => text2 "SNE" (regName x) (hexNumeral 2 kk.toNat)
  | .seReg x y => text2 "SE" (regName x) (regName y)
  | .ldImm x kk => text2 "LD" (regName x) (hexNumeral 2 kk.toNat)
  | .addImm x kk => text2 "ADD" (regName x) (hexNumeral 2 kk.toNat)
  | .ldReg x y => text2 "LD" (regName x) (regName y)
  | .or x y => text2 "OR" (regName x) (regName y)
  | .and x y => text2 "AND" (regName x) (regName y)
  | .xor x y => text2 "XOR" (regName x) (regName y)
  | .addReg x y => text2 "ADD" (regName x) (regName y)
  | .sub x y => text2 "SUB" (regName x) (regName y)
  | .shr x _ => text1 "SHR" (regName x)
  | .subn x y => text2 "SUBN" (regName x) (regName y)
  | .shl x _ => text1 "SHL" (regName x)
  | .sneReg x y => text2 "SNE" (regName x) (regName y)
  | .ldI nnn => text2 "LD" "I" (hexNumeral 3 nnn.toNat)
  | .jpV0 nnn => text2 "JP" "V0" (hexNumeral 3 nnn.toNat)
  | .rnd x kk => text2 "RND" (regName x) (hexNumeral 2 kk.toNat)
  | .drw x y n => text2 "DRW" (regName x) (regName y) ++ ", " ++ toString n.toNat
  | .skp x => text1 "SKP" (regName x)
  | .sknp x => text1 "SKNP" (regName x)
  | .ldVxDT x => text2 "LD" (regName x) "DT"
  | .ldVxK x => text2 "LD" (regName x) "K"
  | .ldDTVx x => text2 "LD" "DT" (regName x)
  | .ldSTVx x => text2 "LD" "ST" (regName x)
  | .addI x => text2 "ADD" "I" (regName x)
  | .ldF x => text2 "LD" "F" (regName x)
  | .ldB x => text2 "LD" "B" (regName x)
  | .storeRegs x => text2 "LD" "[I]" (regName x)
  | .loadRegs x => text2 "LD" (regName x) "[I]"
  | .undef w => text1 "DW" (hexNumeral 4 w.toNat)

/-- One entry of the listing: (address, byte0, byte1, mnemonicText) (R93). -/
structure ListingEntry where
  address : Nat
  byte0 : Byte
  byte1 : Byte
  text : String
  deriving DecidableEq, Repr

/-- The entry at an address (R93). -/
def listingEntry (s : State) (a : Nat) : ListingEntry :=
  { address := a
    byte0 := s.readByte a
    byte1 := s.readByte (a + 1)
    text := assembly (decodeOpcode (opcodeOf (s.readByte a) (s.readByte (a + 1)))) }

/-- The listing of count entries two bytes apart, decoded without executing; it reads memory only and stops where an entry would lie beyond 0xFFF
(R93; assumption 14). -/
def disassembleFrom (s : State) (a : Nat) : Nat → List ListingEntry
  | 0 => []
  | count + 1 => if a ≤ 0xFFE then listingEntry s a :: disassembleFrom s (a + 2) count else []

/-- `disassemble(fromAddress, count = 30)` (30_encoding.md R93, 60_exceptions.md R241). -/
def disassemble (s : State) (fromAddress : Nat) (count : Nat := 30) : List ListingEntry :=
  disassembleFrom s fromAddress count

end Sys2Proof.Machine
end

