-- ==== Sys2Proof/Machine/Signals.lean ====
section
/-! DEFINITION. The output levels of the unit, functions of the state (10_state.md R36): sound_on and status. -/

namespace Sys2Proof.Machine

/-- The level sound_on (60_exceptions.md R236): ST above 0. -/
def soundOn (s : State) : Bool := decide (0 < s.st.toNat)

/-- Whether an instruction waits for a key. -/
def waitsForKey : Instr → Bool
  | .ldVxK _ => true
  | _ => false

/-- The predicate AwaitingKey (44_keyboard_timers.md R202 (a)): Running, no fault, the opcode at PC decodes to LD Vx,K, and no key held. -/
def awaitingKey (s : State) : Bool :=
  s.ticking && s.key.isNone &&
    match s.fetch with
    | none => false
    | some w => waitsForKey (decodeOpcode w)

/-- What the status output shows (10_state.md R36). -/
structure Status where
  runState : RunState
  fault : Option FaultRecord
  awaitingKey : Bool
  deriving DecidableEq, Repr

/-- The status output (10_state.md R36, 60_exceptions.md R230 (c)). -/
def statusOf (s : State) : Status :=
  { runState := s.runState, fault := s.fault, awaitingKey := awaitingKey s }

/-- The code number of a fault cause (60_exceptions.md R220, D31). -/
def faultCode : FaultCause → Nat
  | .stackUnderflow => 1
  | .stackOverflow => 2
  | .fetchOutOfRange => 3
  | .dataOutOfRange _ => 4
  | .writeBelowOrigin _ => 5

end Sys2Proof.Machine
end

