-- ==== Sys2Proof/Safety.lean ====
section
/-! DEFINITION. What claims are stated in: the invariant of reachable states (10_state.md R39), what a safe run is, and what it means that a
part of the state is unchanged. -/

namespace Sys2Proof.Machine

/-- The record a fault latch may hold (60_exceptions.md R230): it names the value of PC, and an opcode exactly when the cause is not a fetch
fault. -/
abbrev FaultRecord.agrees (r : FaultRecord) (pc : Word) : Prop :=
  r.pc = pc ∧ (r.opcode = none ↔ r.cause = .fetchOutOfRange)

/-- The invariant of the machine (10_state.md R39): memory is in canonical form; the stack holds at most STACK_DEPTH entries; under LOW_WRITE_POLICY =
fault every byte below 0x200 is as after construction; a latched fault names the PC it stopped at. -/
abbrev State.Inv (s : State) : Prop :=
  Memory.wf s.params.font s.mem ∧
  s.sp ≤ s.params.stackDepth ∧
  (s.params.lowWrite = .fault → ∀ c ∈ s.mem, Config.romOrigin ≤ c.1) ∧
  (∀ r, s.fault = some r → r.agrees s.pc)

/-- A state of a safe run: the invariant holds and no fault is latched. -/
abbrev State.Safe (s : State) : Prop := s.Inv ∧ s.fault = none

/-- No register changed. -/
abbrev SameRegs (s t : State) : Prop := ∀ r, t.getV r = s.getV r

/-- No register changed but the listed ones. -/
abbrev SameRegsBut (keep : List Reg) (s t : State) : Prop := ∀ r, r ∉ keep → t.getV r = s.getV r

/-- Every byte of memory reads as before. -/
abbrev SameMem (s t : State) : Prop := ∀ a, t.readByte a = s.readByte a

/-- Every byte of memory outside the n bytes from a base reads as before. -/
abbrev SameMemOutside (base n : Nat) (s t : State) : Prop :=
  ∀ a, a < base ∨ base + n ≤ a → t.readByte a = s.readByte a

/-- The control registers the instructions can change: I, DT, ST, the stack. -/
abbrev SameControl (s t : State) : Prop :=
  t.index = s.index ∧ t.dt = s.dt ∧ t.st = s.st ∧ t.stack = s.stack

/-- What no instruction changes: the key latch, run_state, the parameters, the events still to arrive. -/
abbrev SameEnvironment (s t : State) : Prop :=
  t.key = s.key ∧ t.runState = s.runState ∧ t.params = s.params ∧ t.inputs = s.inputs

/-- The framebuffer and what was sent to the host are unchanged. -/
abbrev SameDisplay (s t : State) : Prop := t.fb = s.fb ∧ t.outputs = s.outputs

/-- The fault latch and the count of random bytes are unchanged. -/
abbrev SameLatch (s t : State) : Prop := t.fault = s.fault ∧ t.draws = s.draws

/-- Everything but the registers and PC is unchanged: what every register instruction leaves alone. -/
abbrev SameOutsideRegs (s t : State) : Prop :=
  SameMem s t ∧ SameControl s t ∧ SameDisplay s t ∧ SameLatch s t ∧ SameEnvironment s t

/-- The sprite of n rows at I, drawn at the start coordinates (V[x], V[y]), has a 1 bit over the cell of column px and row py: some row r and
column c with wrapping coordinates, column c being bit 7 - c of the byte at I + r (43_display.md R181, R182). -/
abbrev SpriteCovers (s : State) (x y : Reg) (n : Nibble) (px py : Nat) : Prop :=
  ∃ r, r < n.toNat ∧ ((s.getV y).toNat + r) % 32 = py ∧
    ∃ c, c < 8 ∧ ((s.getV x).toNat + c) % 64 = px ∧ (s.readByte (s.base + r)).getLsbD (7 - c) = true

/-- The n addresses from a base pass the check of a data read (20_memory.md R56). -/
abbrev Readable (base n : Nat) : Prop := n = 0 ∨ base + n ≤ 0x1000

/-- The n addresses from a base pass the check of a store (20_memory.md R57). -/
abbrev Storable (s : State) (base n : Nat) : Prop :=
  base + n ≤ 0x1000 ∧ (s.params.lowWrite = .fault → 0x200 ≤ base)

/-- The registers an instruction writes when it completes, the flag register among them (10_state.md R22; the operands of each rule). -/
def regWrites : Instr → List Reg
  | .ldImm x _ | .addImm x _ | .ldReg x _ | .or x _ | .and x _ | .xor x _ | .rnd x _ | .ldVxDT x | .ldVxK x => [x]
  | .addReg x _ | .sub x _ | .shr x _ | .subn x _ | .shl x _ => [x, regF]
  | .drw _ _ _ => [regF]
  | .loadRegs x => (List.range (x.toNat + 1)).map (BitVec.ofNat 4)
  | .cls | .ret | .sys _ | .jmp _ | .call _ | .seImm _ _ | .sneImm _ _ | .seReg _ _ | .sneReg _ _ | .ldI _ | .jpV0 _
  | .skp _ | .sknp _ | .ldDTVx _ | .ldSTVx _ | .addI _ | .ldF _ | .ldB _ | .storeRegs _ | .undef _ => []

/-- The condition under which an instruction faults in its execute phase (60_exceptions.md R220). -/
def faultCondition (s : State) : Instr → Prop
  | .ret => s.sp = 0
  | .call _ => s.params.stackDepth ≤ s.sp
  | .drw _ _ n => ¬ Readable s.base n.toNat
  | .ldB _ => ¬ Storable s s.base 3
  | .storeRegs x => ¬ Storable s s.base (x.toNat + 1)
  | .loadRegs x => ¬ Readable s.base (x.toNat + 1)
  | .cls | .sys _ | .jmp _ | .seImm _ _ | .sneImm _ _ | .seReg _ _ | .ldImm _ _ | .addImm _ _ | .ldReg _ _ | .or _ _
  | .and _ _ | .xor _ _ | .addReg _ _ | .sub _ _ | .shr _ _ | .subn _ _ | .shl _ _ | .sneReg _ _ | .ldI _ | .jpV0 _
  | .rnd _ _ | .skp _ | .sknp _ | .ldVxDT _ | .ldVxK _ | .ldDTVx _ | .ldSTVx _ | .addI _ | .ldF _ | .undef _ => False

end Sys2Proof.Machine
end

