-- ==== Sys2Proof/Certificates/Slice0/Obligations.lean ====
section
/-! DEFINITION. The statements for the provers, from the numbered rules of spec/. Each docstring names the rule it formalises. -/

open Sys2Proof Sys2Proof.Machine

/-! ### Reset, invariant, step -/

/-- Derived from 70_reset_and_hazards.md R261 and the first column of 10_state.md R37 (the zeros, the empty latch and the blank frame are the spec's
own decisions D9 to D12): the state after construction; no instruction executes until a start, and a start right after construction runs
SYS 0, a self-loop. FONT is whatever the parameter says. -/
def Obligations.ConstructionLeavesTheTabledState : Prop :=
  (∀ r, State.reset.getV r = 0) ∧ State.reset.pc = 0x200 ∧ State.reset.index = 0 ∧ State.reset.dt = 0 ∧
  State.reset.st = 0 ∧ State.reset.sp = 0 ∧
  (∀ a (h : a < 80), State.reset.readByte a = State.reset.params.font[a]) ∧
  (∀ a, 80 ≤ a → State.reset.readByte a = 0) ∧
  (∀ k, State.reset.fb.getLsbD k = false) ∧ State.reset.key = none ∧ State.reset.runState = .stopped ∧
  State.reset.fault = none ∧ step State.reset = .next State.reset ∧
  (start State.reset).fetch = some 0 ∧ decodeOpcode 0 = .sys 0 ∧
  step (start State.reset) = .next (start State.reset)

/-- The model's form and derived from 10_state.md R39: the state after construction meets the invariant. That memory is in canonical form is the model's
own choice (assumption 9, DESIGN CHOICE), which R39 does not say; the other conjuncts are R39's, with the spec's own decisions D5, D6 and D8
(assumption 19). -/
def Obligations.ConstructionMeetsTheInvariant : Prop := State.reset.Inv

/-- The model's form and derived from 10_state.md R39: every step keeps the invariant, from every state that meets it and for every event. Canonical memory
is the model's own choice (assumption 9, DESIGN CHOICE), which R39 does not say; the bounded stack rests on the spec's own decision D6,
nothing stored below 0x200 under LOW_WRITE_POLICY = fault on D5, the latch naming the PC it stopped at on D8 (assumption 19). -/
def Obligations.EveryStepKeepsTheInvariant : Prop :=
  ∀ s t : State, s.Inv → step s = .next t → t.Inv

/-- Derived from 10_state.md R39 (that a store below 0x200 faults is the spec's own decision D5, that 0x050 to 0x1FF read 0 is D10: assumption 19): with
LOW_WRITE_POLICY = fault every byte below 0x200 reads as after construction in every state that meets the invariant, so no step
changes it. -/
def Obligations.LowMemoryStaysAsConstructed : Prop :=
  ∀ s t : State, s.Inv → s.params.lowWrite = .fault → step s = .next t →
    (∀ a (h : a < 80), t.readByte a = s.params.font[a]) ∧ (∀ a, 80 ≤ a → a < 0x200 → t.readByte a = 0)

/-- Derived from 10_state.md R35: the parameters are fixed for a whole run. -/
def Obligations.EveryStepKeepsTheParameters : Prop :=
  ∀ s t : State, step s = .next t → t.params = s.params

/-- Derived from 60_exceptions.md R227 and R230 (that a fault is a next state with the latch set is the model's form, assumption 6): every step of
every state answers a next state; the machine itself never stops. -/
def Obligations.EveryStepAnswersANextState : Prop := ∀ s : State, ∃ t, step s = .next t

/-- Derived from 00_scope.md R5 and 20_memory.md R52: when the bytes at PC decode to a well-formed instruction, a step with an instruction tick next
is the execute phase of it; the event list moves on (the list, and that an empty one stands for an instruction tick, is the model's form:
assumption 1). -/
def Obligations.StepRunsTheDecodedInstruction : Prop :=
  ∀ (s : State) (i : Instr), s.runState = .running → s.fault = none → s.pc.toNat ≤ 0xFFE →
    decode [s.readByte s.pc.toNat, s.readByte (s.pc.toNat + 1)] = .ok (i, []) → wellFormed i = true →
    (s.inputs = [] → step s = exec i s) ∧
    (∀ rest, s.inputs = .iclk :: rest → step s = exec i { s with inputs := rest })

/-- Derived from 20_memory.md R52 and 60_exceptions.md R223 (the byte order of the fetch is the spec's own decision D20, that a fetch outside memory
faults D3: assumption 19; that an empty event list stands for an instruction tick is the model's choice, assumption 1, DESIGN CHOICE): the
fetch is big-endian; with PC above 0xFFE an instruction tick, by default or listed first, latches FetchOutOfRange with no opcode and
changes nothing else but the event list. -/
def Obligations.FetchIsBigEndianAndFaultsOutsideMemory : Prop :=
  (∀ s : State, s.pc.toNat ≤ 0xFFE → ∃ w, s.fetch = some w ∧
    w.toNat = (s.readByte s.pc.toNat).toNat * 256 + (s.readByte (s.pc.toNat + 1)).toNat) ∧
  (∀ s : State, 0xFFE < s.pc.toNat → s.fetch = none ∧
    (s.runState = .running → s.fault = none → s.inputs = [] ∨ s.inputs.head? = some .iclk →
      step s = .next { s with fault := some ⟨.fetchOutOfRange, s.pc, none⟩, inputs := s.inputs.tail }))

/-- Derived from 20_memory.md R52 and R62: an opcode placed where the next step fetches is the instruction that step runs
(how it is placed is the model's choice: assumption 10). -/
def Obligations.PlacedOpcodeIsTheOneExecuted : Prop :=
  ∀ (s : State) (w : Word), Memory.wf s.params.font s.mem →
    step (s.withFetchWord 16 w.toNat) = exec (decodeOpcode w) (s.withFetchWord 16 w.toNat)

/-! ### Encoding -/

/-- Derived from 30_encoding.md R83, R85 and R86: decode of encode is the instruction, for every well-formed instruction and every operand value. -/
def Obligations.DecodeOfEncodeIsTheInstruction : Prop :=
  ∀ i : Instr, wellFormed i = true → decodeOpcode (encode i) = i

/-- Derived from 30_encoding.md R85, R87 and R89: every opcode decodes to a well-formed instruction that encodes back to it, so decoding drops no
bit. -/
def Obligations.EncodeOfDecodeIsTheOpcode : Prop :=
  ∀ w : Word, wellFormed (decodeOpcode w) = true ∧ encode (decodeOpcode w) = w

/-- Derived from 30_encoding.md R85 and R86: the decode procedure is the first row of the opcode map whose mask and match fit. -/
def Obligations.DecodeAgreesWithTheOpcodeMap : Prop :=
  ∀ w : Word, tableDecode w = some (decodeOpcode w)

/-- Derived from 30_encoding.md R87 (that 5xyN and 9xyN with N not 0 are UNDEF is the spec's own decision D28: assumption 19): an opcode decodes to
UNDEF exactly when the list of R87 names it (how many there are is not said here). -/
def Obligations.UndefIsExactlyTheListedOpcodes : Prop :=
  ∀ w : Word, decodeOpcode w = .undef w ↔
    ((w.toNat / 4096 = 5 ∨ w.toNat / 4096 = 9) ∧ w.toNat % 16 ≠ 0) ∨
    (w.toNat / 4096 = 8 ∧ 8 ≤ w.toNat % 16 ∧ w.toNat % 16 ≠ 14) ∨
    (w.toNat / 4096 = 14 ∧ w.toNat % 256 ≠ 0x9E ∧ w.toNat % 256 ≠ 0xA1) ∨
    (w.toNat / 4096 = 15 ∧ w.toNat % 256 ∉ [0x07, 0x0A, 0x15, 0x18, 0x1E, 0x29, 0x33, 0x55, 0x65])

/-- Derived from 30_encoding.md R83 and R86: a few words of each format, written out bit by bit, decode to the instruction they stand for. -/
def Obligations.SampleWordsDecodeAsTabled : Prop :=
  decodeOpcode 0b0000000011100000 = .cls ∧ decodeOpcode 0b0001101010111100 = .jmp 0xABC ∧
  decodeOpcode 0b1100000111111111 = .rnd 1 0xFF ∧ decodeOpcode 0b1000000100100100 = .addReg 1 2 ∧
  decodeOpcode 0b1101000100101111 = .drw 1 2 15 ∧ decodeOpcode 0b1111000101100101 = .loadRegs 1 ∧
  decodeOpcode 0b1110000110011110 = .skp 1 ∧ decodeOpcode 0b1001000100101111 = .undef 0x912F

/-! ### Control flow -/

/-- Derived from 40_control_flow.md R110 (that underflow is fatal is the spec's own decision D7): RET pops the top of the stack and goes two past
it; on an empty stack it latches StackUnderflow and changes nothing else. -/
def Obligations.RetReturnsPastTheCallOrUnderflows : Prop :=
  (∀ (s : State) (a : Word) (rest : List Word), s.stack = a :: rest →
    exec .ret s = .next { s with stack := rest, pc := a + 2 }) ∧
  (∀ s : State, s.stack = [] →
    exec .ret s = .next { s with fault := some ⟨.stackUnderflow, s.pc, some 0x00EE⟩ })

/-- Derived from 40_control_flow.md R113 (that overflow is fatal is the spec's own decision D6): CALL pushes its own address and goes to nnn; on a
full stack it latches StackOverflow and changes nothing else. -/
def Obligations.CallPushesItsAddressOrOverflows : Prop :=
  (∀ (s : State) (nnn : Addr12), s.sp < s.params.stackDepth → ∃ t, exec (.call nnn) s = .next t ∧
    t = { s with stack := s.pc :: s.stack, pc := t.pc } ∧ t.sp = s.sp + 1 ∧
    t.stackEntry s.sp = some s.pc ∧ t.pc.toNat = nnn.toNat) ∧
  (∀ (s : State) (nnn : Addr12), s.params.stackDepth ≤ s.sp → ∃ w : Word, w.toNat = 0x2000 + nnn.toNat ∧
    exec (.call nnn) s = .next { s with fault := some ⟨.stackOverflow, s.pc, some w⟩ })

/-- Derived from 40_control_flow.md R110 and R113 (the round trip of R110's example): CALL then RET goes on after the CALL with everything else as
before. -/
def Obligations.CallThenRetGoesOnAfterTheCall : Prop :=
  ∀ (s : State) (nnn : Addr12), s.sp < s.params.stackDepth →
    ∃ t u, exec (.call nnn) s = .next t ∧ exec .ret t = .next u ∧ u = { s with pc := s.pc + 2 }

/-- 40_control_flow.md R111: SYS completes and changes nothing at all. -/
def Obligations.SysIsACompletedSelfLoop : Prop :=
  ∀ (s : State) (nnn : Addr12), exec (.sys nnn) s = .next s

/-- 40_control_flow.md R112: JMP goes to nnn, and nothing else changes. -/
def Obligations.JumpGoesToItsAddress : Prop :=
  ∀ (s : State) (nnn : Addr12), ∃ t, exec (.jmp nnn) s = .next t ∧ t = { s with pc := t.pc } ∧
    t.pc.toNat = nnn.toNat

/-- Derived from 40_control_flow.md R118 (that the sum is not reduced to 12 bits is the spec's own decision D2): JP V0 goes to nnn plus V[0], and
nothing else changes. -/
def Obligations.JumpV0GoesToTheUnreducedSum : Prop :=
  ∀ (s : State) (nnn : Addr12), ∃ t, exec (.jpV0 nnn) s = .next t ∧ t = { s with pc := t.pc } ∧
    t.pc.toNat = nnn.toNat + (s.getV 0).toNat

/-- 40_control_flow.md R114 to R117: the register skips go four or two on and change nothing else. -/
def Obligations.RegisterSkipsCompareWhole : Prop :=
  ∀ (s : State) (x y : Reg) (kk : Byte),
    exec (.seImm x kk) s = .next { s with pc := if s.getV x = kk then s.pc + 4 else s.pc + 2 } ∧
    exec (.sneImm x kk) s = .next { s with pc := if s.getV x = kk then s.pc + 2 else s.pc + 4 } ∧
    exec (.seReg x y) s = .next { s with pc := if s.getV x = s.getV y then s.pc + 4 else s.pc + 2 } ∧
    exec (.sneReg x y) s = .next { s with pc := if s.getV x = s.getV y then s.pc + 2 else s.pc + 4 }

/-- Derived from 40_control_flow.md R119 (that UNDEF moves PC on by two is the spec's own decision D28 with 90_conflicts.md C2: assumption 19): UNDEF
moves PC on by two and changes nothing else, whatever its opcode. -/
def Obligations.UndefOnlyAdvances : Prop :=
  ∀ (s : State) (w : Word), exec (.undef w) s = .next { s with pc := s.pc + 2 }

/-- Derived from 10_state.md R24 (the comparisons of the key skips are the spec's own decision D24, the unreduced JP V0 D2, UNDEF D28, that a fault
leaves PC D8: assumption 19): an instruction that leaves no fault latched sets PC in exactly the way R24 names for it, each skip under its
own condition, and one that latches a fault leaves PC unchanged. -/
def Obligations.EveryInstructionSetsPcAsR24Says : Prop :=
  (∀ (i : Instr) (s t : State), exec i s = .next t → t.fault = none →
    match i with
    | .sys _ => t.pc = s.pc
    | .jmp nnn | .call nnn => t.pc.toNat = nnn.toNat
    | .jpV0 nnn => t.pc.toNat = (nnn.toNat + (s.getV 0).toNat) % 65536
    | .ret => ∃ a, s.stack.head? = some a ∧ t.pc = a + 2
    | .seImm x kk => t.pc = if s.getV x = kk then s.pc + 4 else s.pc + 2
    | .sneImm x kk => t.pc = if s.getV x ≠ kk then s.pc + 4 else s.pc + 2
    | .seReg x y => t.pc = if s.getV x = s.getV y then s.pc + 4 else s.pc + 2
    | .sneReg x y => t.pc = if s.getV x ≠ s.getV y then s.pc + 4 else s.pc + 2
    | .skp x => t.pc = if s.key.map BitVec.toNat = some (s.getV x).toNat then s.pc + 4 else s.pc + 2
    | .sknp x => t.pc = if s.key.map BitVec.toNat ≠ some (s.getV x).toNat then s.pc + 4 else s.pc + 2
    | .ldVxK _ => if s.key = none then t.pc = s.pc else t.pc = s.pc + 2
    | _ => t.pc = s.pc + 2) ∧
  (∀ (i : Instr) (s t : State), s.fault = none → exec i s = .next t → t.fault ≠ none → t.pc = s.pc)

/-! ### Arithmetic, logic, shifts, random -/

/-- 41_alu.md R130 and R132 to R135: the loads and the logic operations write V[x] alone, without a flag. -/
def Obligations.LoadsAndLogicWriteOneRegister : Prop :=
  ∀ (s : State) (x y : Reg) (kk : Byte),
    (∃ t, exec (.ldImm x kk) s = .next t ∧ t.getV x = kk ∧ SameRegsBut [x] s t ∧ t.pc = s.pc + 2 ∧ SameOutsideRegs s t) ∧
    (∃ t, exec (.ldReg x y) s = .next t ∧ t.getV x = s.getV y ∧ SameRegsBut [x] s t ∧ t.pc = s.pc + 2 ∧
      SameOutsideRegs s t) ∧
    (∃ t, exec (.or x y) s = .next t ∧ t.getV x = s.getV x ||| s.getV y ∧ SameRegsBut [x] s t ∧ t.pc = s.pc + 2 ∧
      SameOutsideRegs s t) ∧
    (∃ t, exec (.and x y) s = .next t ∧ t.getV x = s.getV x &&& s.getV y ∧ SameRegsBut [x] s t ∧ t.pc = s.pc + 2 ∧
      SameOutsideRegs s t) ∧
    (∃ t, exec (.xor x y) s = .next t ∧ t.getV x = s.getV x ^^^ s.getV y ∧ SameRegsBut [x] s t ∧ t.pc = s.pc + 2 ∧
      SameOutsideRegs s t)

/-- 41_alu.md R131: ADD Vx,kk wraps modulo 256 and writes no flag. -/
def Obligations.AddImmediateWrapsWithoutFlag : Prop :=
  ∀ (s : State) (x : Reg) (kk : Byte), ∃ t, exec (.addImm x kk) s = .next t ∧
    (t.getV x).toNat = ((s.getV x).toNat + kk.toNat) % 256 ∧ SameRegsBut [x] s t ∧ t.pc = s.pc + 2 ∧
    SameOutsideRegs s t

/-- Derived from 41_alu.md R136 (the case x = F, by R143, is the spec's own decision D17: assumption 19): ADD Vx,Vy writes the carry to VF and then the
sum to V[x], so with x = F the sum stays. -/
def Obligations.AddRegistersSumAndCarry : Prop :=
  ∀ (s : State) (x y : Reg), ∃ t, exec (.addReg x y) s = .next t ∧
    (t.getV x).toNat = ((s.getV x).toNat + (s.getV y).toNat) % 256 ∧
    (x ≠ regF → (t.getV regF).toNat = if 255 < (s.getV x).toNat + (s.getV y).toNat then 1 else 0) ∧
    SameRegsBut [x, regF] s t ∧ t.pc = s.pc + 2 ∧ SameOutsideRegs s t

/-- Derived from 41_alu.md R137 and R139 (the case x = F, by R143, is the spec's own decision D17: assumption 19): SUB and SUBN leave the remainder modulo
256 of the true difference, and VF says no borrow; with x = F the difference stays. -/
def Obligations.SubtractionsDifferenceAndNoBorrow : Prop :=
  ∀ (s : State) (x y : Reg),
    (∃ t, exec (.sub x y) s = .next t ∧
      ((t.getV x).toNat : Int) = ((s.getV x).toNat - (s.getV y).toNat : Int) % 256 ∧
      (x ≠ regF → (t.getV regF).toNat = if (s.getV x).toNat < (s.getV y).toNat then 0 else 1) ∧
      SameRegsBut [x, regF] s t ∧ t.pc = s.pc + 2 ∧ SameOutsideRegs s t) ∧
    (∃ t, exec (.subn x y) s = .next t ∧
      ((t.getV x).toNat : Int) = ((s.getV y).toNat - (s.getV x).toNat : Int) % 256 ∧
      (x ≠ regF → (t.getV regF).toNat = if (s.getV y).toNat < (s.getV x).toNat then 0 else 1) ∧
      SameRegsBut [x, regF] s t ∧ t.pc = s.pc + 2 ∧ SameOutsideRegs s t)

/-- Derived from 41_alu.md R138 (the case x = F is the spec's own decision D17): SHR with SHIFT_SOURCE = VX halves V[x] and VF is its low bit; with
x = F the result is 0. y is ignored. -/
def Obligations.ShiftRightHalvesVx : Prop :=
  ∀ (s : State) (x y : Reg), s.params.shiftSource = .vx → ∃ t, exec (.shr x y) s = .next t ∧
    (x ≠ regF → (t.getV x).toNat = (s.getV x).toNat / 2 ∧ (t.getV regF).toNat = (s.getV x).toNat % 2) ∧
    (x = regF → t.getV regF = 0) ∧
    SameRegsBut [x, regF] s t ∧ t.pc = s.pc + 2 ∧ SameOutsideRegs s t

/-- Derived from 41_alu.md R140 (the parameter SHL_FLAG is the spec's own decision D35, the case x = F D17): SHL with SHIFT_SOURCE = VX doubles V[x]
modulo 256; VF is bit 0 of V[x] before the shift, or bit 7 with SHL_FLAG = msb; with x = F the flag is doubled. y is ignored. -/
def Obligations.ShiftLeftDoublesVx : Prop :=
  ∀ (s : State) (x y : Reg), s.params.shiftSource = .vx → ∃ t, exec (.shl x y) s = .next t ∧
    (x ≠ regF → (t.getV x).toNat = (2 * (s.getV x).toNat) % 256 ∧
      (t.getV regF).toNat = if s.params.shlFlag = .lsb then (s.getV x).toNat % 2 else (s.getV x).toNat / 128) ∧
    (x = regF → (t.getV regF).toNat =
      2 * (if s.params.shlFlag = .lsb then (s.getV x).toNat % 2 else (s.getV x).toNat / 128)) ∧
    SameRegsBut [x, regF] s t ∧ t.pc = s.pc + 2 ∧ SameOutsideRegs s t

/-- Derived from 41_alu.md R144 (the wording of the VY setting is the spec's own decision D22): the hardware has SHIFT_SOURCE = VX; with
SHIFT_SOURCE = VY both shifts read V[y] once, before any write; V[y] itself is unchanged unless y is x or F (SHL with the flag bit R144
gives, SHL_FLAG = lsb). -/
def Obligations.ShiftsReadVyUnderTheQuirk : Prop :=
  State.reset.params.shiftSource = .vx ∧
  ∀ (s : State) (x y : Reg), s.params.shiftSource = .vy →
    (∃ t, exec (.shr x y) s = .next t ∧ (t.getV x).toNat = (s.getV y).toNat / 2 ∧
      (x ≠ regF → (t.getV regF).toNat = (s.getV y).toNat % 2) ∧
      SameRegsBut [x, regF] s t ∧ t.pc = s.pc + 2 ∧ SameOutsideRegs s t) ∧
    (s.params.shlFlag = .lsb → ∃ t, exec (.shl x y) s = .next t ∧
      (t.getV x).toNat = (2 * (s.getV y).toNat) % 256 ∧
      (x ≠ regF → (t.getV regF).toNat = (s.getV y).toNat % 2) ∧
      SameRegsBut [x, regF] s t ∧ t.pc = s.pc + 2 ∧ SameOutsideRegs s t)

/-- The model's choice (assumption 11, DEDUCED from 41_alu.md R140 and R144): with SHIFT_SOURCE = VY and SHL_FLAG = msb together, SHL's flag is bit 7
of V[y]. -/
def Obligations.ShiftLeftOfVyWithTheMsbFlag : Prop :=
  ∀ (s : State) (x y : Reg), s.params.shiftSource = .vy → s.params.shlFlag = .msb →
    ∃ t, exec (.shl x y) s = .next t ∧ (t.getV x).toNat = (2 * (s.getV y).toNat) % 256 ∧
      (x ≠ regF → (t.getV regF).toNat = (s.getV y).toNat / 128) ∧
      SameRegsBut [x, regF] s t ∧ t.pc = s.pc + 2 ∧ SameOutsideRegs s t

/-- Derived from 41_alu.md R143 (reading the source's statements as sequential is the spec's own decision D17): with VF as the destination of the
five flag-writing operations the result wins, and the shifts read what the flag write left (SHIFT_SOURCE = VX, SHL_FLAG = lsb, the
hardware's settings). -/
def Obligations.ResultWinsInTheFlagRegister : Prop :=
  ∀ (s : State) (y : Reg), s.params.shiftSource = .vx → s.params.shlFlag = .lsb →
    ∃ t1 t2 t3 t4 t5, exec (.addReg regF y) s = .next t1 ∧ exec (.sub regF y) s = .next t2 ∧
      exec (.subn regF y) s = .next t3 ∧ exec (.shr regF y) s = .next t4 ∧ exec (.shl regF y) s = .next t5 ∧
      (t1.getV regF).toNat = ((s.getV regF).toNat + (s.getV y).toNat) % 256 ∧
      ((t2.getV regF).toNat : Int) = ((s.getV regF).toNat - (s.getV y).toNat : Int) % 256 ∧
      ((t3.getV regF).toNat : Int) = ((s.getV y).toNat - (s.getV regF).toNat : Int) % 256 ∧
      t4.getV regF = 0 ∧ (t5.getV regF).toNat = 2 * ((s.getV regF).toNat % 2)

/-- Derived from 41_alu.md R141 (that the byte is a draw under no law is the spec's own decision D16; the free value is assumption 4): RND leaves a
free random byte ANDed with kk; what a program may rely on is that the bits outside kk are 0. Each execution takes the next byte. -/
def Obligations.RandomByteIsMasked : Prop :=
  ∀ (s : State) (x : Reg) (kk : Byte), ∃ t, exec (.rnd x kk) s = .next t ∧
    t.getV x = Config.randomByte s.draws &&& kk ∧ t.getV x &&& ~~~kk = 0 ∧ (kk = 0 → t.getV x = 0) ∧
    t.draws = s.draws + 1 ∧ SameRegsBut [x] s t ∧ t.pc = s.pc + 2 ∧ SameMem s t ∧ SameControl s t ∧
    SameDisplay s t ∧ t.fault = s.fault ∧ SameEnvironment s t

/-- Derived from 10_state.md R21, R22 and the operands of each rule: no instruction writes a register but the ones named for it; VF is written as a
flag by six operations alone. -/
def Obligations.RegistersChangeOnlyWhereNamed : Prop :=
  ∀ (i : Instr) (s t : State), exec i s = .next t → SameRegsBut (regWrites i) s t

/-! ### Index register and memory -/

/-- 42_index_memory.md R160: LD I sets I to nnn, and nothing else but PC changes. -/
def Obligations.LoadIndexWritesIAlone : Prop :=
  ∀ (s : State) (nnn : Addr12), ∃ t, exec (.ldI nnn) s = .next t ∧
    t = { s with index := t.index, pc := s.pc + 2 } ∧ t.index.toNat = nnn.toNat

/-- Derived from 42_index_memory.md R161 and R162 (the 16-bit width of I is the spec's own decision D1, the unmasked register D29): ADD I adds V[x] modulo
2^16 without a flag, LD F sets I to five times the whole register, and nothing else but PC changes. -/
def Obligations.IndexArithmeticWritesIAlone : Prop :=
  ∀ (s : State) (x : Reg),
    (∃ t, exec (.addI x) s = .next t ∧ t = { s with index := t.index, pc := s.pc + 2 } ∧
      t.index.toNat = (s.index.toNat + (s.getV x).toNat) % 65536) ∧
    (∃ t, exec (.ldF x) s = .next t ∧ t = { s with index := t.index, pc := s.pc + 2 } ∧
      t.index.toNat = (s.getV x).toNat * 5)

/-- Derived from 42_index_memory.md R163 (the order of the digits is the spec's own decision D19, the faults D4 and D5): LD B stores the three decimal
digits from I on, hundreds first, changes no other byte and no register; when one of the three addresses fails nothing is written and
the fault is latched. -/
def Obligations.DecimalDigitsAreStored : Prop :=
  (∀ (s : State) (x : Reg), Memory.wf s.params.font s.mem → Storable s s.base 3 → ∃ t, exec (.ldB x) s = .next t ∧
    (t.readByte s.base).toNat = (s.getV x).toNat / 100 ∧
    (t.readByte (s.base + 1)).toNat = (s.getV x).toNat / 10 % 10 ∧
    (t.readByte (s.base + 2)).toNat = (s.getV x).toNat % 10 ∧
    SameMemOutside s.base 3 s t ∧ t = { s with mem := t.mem, pc := s.pc + 2 }) ∧
  (∀ (s : State) (x : Reg), ¬ Storable s s.base 3 → ∃ r, r.pc = s.pc ∧ r.opcode = some (encode (.ldB x)) ∧
    r.cause = (if s.base < 0x200 ∧ s.params.lowWrite = .fault then .writeBelowOrigin s.base
      else .dataOutOfRange (max s.base 0x1000)) ∧
    exec (.ldB x) s = .next { s with fault := some r })

/-- Derived from 42_index_memory.md R164 and 60_exceptions.md R230 (the faults are the spec's own decisions D4 and D5, the precise record D8: assumption
19): LD [I],Vx stores V[0] to V[x] from I on, changes no other byte and no register, and advances I past them; when one of the
addresses fails nothing is written and the fault is latched, with PC and the opcode. -/
def Obligations.RegistersAreStoredFromI : Prop :=
  (∀ (s : State) (x : Reg), Memory.wf s.params.font s.mem → Storable s s.base (x.toNat + 1) →
    ∃ t, exec (.storeRegs x) s = .next t ∧
      (∀ r : Reg, r.toNat ≤ x.toNat → t.readByte (s.base + r.toNat) = s.getV r) ∧
      SameMemOutside s.base (x.toNat + 1) s t ∧
      t.index.toNat = s.index.toNat + x.toNat + 1 ∧
      t = { s with mem := t.mem, index := t.index, pc := s.pc + 2 }) ∧
  (∀ (s : State) (x : Reg), ¬ Storable s s.base (x.toNat + 1) → ∃ r, r.pc = s.pc ∧
    r.opcode = some (encode (.storeRegs x)) ∧
    r.cause = (if s.base < 0x200 ∧ s.params.lowWrite = .fault then .writeBelowOrigin s.base
      else .dataOutOfRange (max s.base 0x1000)) ∧
    exec (.storeRegs x) s = .next { s with fault := some r })

/-- Derived from 42_index_memory.md R165 and 60_exceptions.md R230 (the fault is the spec's own decision D4, the precise record D8: assumption 19): LD
Vx,[I] loads V[0] to V[x] from I on, leaves the other registers and all of memory, and advances I; when one of the addresses fails
nothing is loaded and the fault is latched, with PC and the opcode. -/
def Obligations.RegistersAreLoadedFromI : Prop :=
  (∀ (s : State) (x : Reg), Readable s.base (x.toNat + 1) → ∃ t, exec (.loadRegs x) s = .next t ∧
    (∀ r : Reg, t.getV r = if r.toNat ≤ x.toNat then s.readByte (s.base + r.toNat) else s.getV r) ∧
    t.index.toNat = s.index.toNat + x.toNat + 1 ∧ SameMem s t ∧
    t = { s with v := t.v, index := t.index, pc := s.pc + 2 }) ∧
  (∀ (s : State) (x : Reg), ¬ Readable s.base (x.toNat + 1) →
    exec (.loadRegs x) s = .next { s with
      fault := some ⟨.dataOutOfRange (max s.base 0x1000), s.pc, some (encode (.loadRegs x))⟩ })

/-- Derived from 42_index_memory.md R164 and R165 (the round-trip property of R165): a store of V[0] to V[x] followed by a load at the same I, memory
unmodified in between, gives the same registers back. -/
def Obligations.StoreThenLoadRoundTrips : Prop :=
  ∀ (s t u : State) (x : Reg), Memory.wf s.params.font s.mem → Storable s s.base (x.toNat + 1) →
    exec (.storeRegs x) s = .next t → u.mem = t.mem → u.params = t.params → u.index = s.index →
    ∃ w, exec (.loadRegs x) u = .next w ∧ ∀ r : Reg, r.toNat ≤ x.toNat → w.getV r = s.getV r

/-- Derived from 20_memory.md R53, R65 and 70_reset_and_hazards.md R274 (that the very next fetch sees a store is the spec's own decision D33, that the
lower address is the upper half D20: assumption 19): bytes a store has written are the opcode the next fetch there reads, the lower
register in the upper half. -/
def Obligations.StoredBytesAreFetchedAtOnce : Prop :=
  ∀ (s t : State) (x q r : Reg), Memory.wf s.params.font s.mem → Storable s s.base (x.toNat + 1) →
    exec (.storeRegs x) s = .next t → r.toNat = q.toNat + 1 → r.toNat ≤ x.toNat →
    ∃ w, { t with pc := BitVec.ofNat 16 (s.base + q.toNat) }.fetch = some w ∧
      w.toNat = (s.getV q).toNat * 256 + (s.getV r).toNat

/-- Derived from 20_memory.md R55, 10_state.md R25 to R31 and R35: each part of the state is changed only by the instructions that name it, and none
changes the key latch, run_state, the parameters or the events still to arrive. -/
def Obligations.EachPartChangesOnlyWhereNamed : Prop :=
  ∀ (i : Instr) (s t : State), exec i s = .next t → SameEnvironment s t ∧
    ((∀ x, i ≠ .ldB x) → (∀ x, i ≠ .storeRegs x) → SameMem s t) ∧
    (i ≠ .ret → (∀ n, i ≠ .call n) → t.stack = s.stack) ∧
    (i ≠ .cls → (∀ x y n, i ≠ .drw x y n) → SameDisplay s t) ∧
    ((∀ x, i ≠ .ldDTVx x) → t.dt = s.dt) ∧ ((∀ x, i ≠ .ldSTVx x) → t.st = s.st) ∧
    ((∀ x kk, i ≠ .rnd x kk) → t.draws = s.draws) ∧
    ((∀ n, i ≠ .ldI n) → (∀ x, i ≠ .addI x) → (∀ x, i ≠ .ldF x) → (∀ x, i ≠ .storeRegs x) →
      (∀ x, i ≠ .loadRegs x) → t.index = s.index)

/-! ### Display -/

/-- 43_display.md R180: CLS clears every cell, emits one frame event of the blank frame, and changes nothing else. -/
def Obligations.ClsBlanksAndEmitsOneFrame : Prop :=
  ∀ s : State, ∃ t, exec .cls s = .next t ∧ (∀ k, k < 2048 → t.fb.getLsbD k = false) ∧
    t.outputs = .frame t.fb :: s.outputs ∧ t = { s with fb := t.fb, pc := s.pc + 2, outputs := t.outputs }

/-- Derived from 43_display.md R181 and R182 (that the flag is cleared and written last is the spec's own decision D18, the fault D4): DRW toggles
exactly the cells the sprite's 1 bits cover, coordinates wrapping per pixel; VF is 1 when a covered cell was 1 and 0 otherwise; one frame
event carries the frame after the draw; nothing else changes. When a sprite row lies above 0xFFF nothing is drawn and DataOutOfRange is
latched. -/
def Obligations.DrawTogglesTheCoveredCells : Prop :=
  (∀ (s : State) (x y : Reg) (n : Nibble), Readable s.base n.toNat → ∃ t, exec (.drw x y n) s = .next t ∧
    (∀ px py, px < 64 → py < 32 →
      t.fb.getLsbD (px + 64 * py) = (s.fb.getLsbD (px + 64 * py) ^^ decide (SpriteCovers s x y n px py))) ∧
    (t.getV regF = 1 ↔ ∃ px py, px < 64 ∧ py < 32 ∧ SpriteCovers s x y n px py ∧
      s.fb.getLsbD (px + 64 * py) = true) ∧
    (t.getV regF = 0 ∨ t.getV regF = 1) ∧
    SameRegsBut [regF] s t ∧ SameMem s t ∧ t.outputs = .frame t.fb :: s.outputs ∧
    t = { s with v := t.v, fb := t.fb, pc := s.pc + 2, outputs := t.outputs }) ∧
  (∀ (s : State) (x y : Reg) (n : Nibble), ¬ Readable s.base n.toNat →
    exec (.drw x y n) s = .next { s with
      fault := some ⟨.dataOutOfRange (max s.base 0x1000), s.pc, some (encode (.drw x y n))⟩ })

/-- Derived from 43_display.md R181 (the XOR self-inverse property and 90_conflicts.md C11): drawing the same sprite twice at the same coordinates
restores the framebuffer; the second draw sets VF exactly when a covered cell was 0 before the first. -/
def Obligations.DrawTwiceRestoresTheFrame : Prop :=
  ∀ (s : State) (x y : Reg) (n : Nibble), Readable s.base n.toNat → x ≠ regF → y ≠ regF →
    ∃ t u, exec (.drw x y n) s = .next t ∧ exec (.drw x y n) t = .next u ∧ u.fb = s.fb ∧
      (u.getV regF = 1 ↔
        ∃ px py, px < 64 ∧ py < 32 ∧ SpriteCovers s x y n px py ∧ s.fb.getLsbD (px + 64 * py) = false)

/-- Derived from 43_display.md R183 (that stop emits none and that coalescing is the observer's is the spec's own decision D26): every CLS and every DRW
that completes emits exactly one frame event with the frame at its end; no other instruction, and no instruction that holds or faults,
emits one, and neither does stop, which clears FB. -/
def Obligations.FrameEventsComeFromClsAndDrwAlone : Prop :=
  (∀ (i : Instr) (s t : State), exec i s = .next t →
    match i with
    | .cls => t.outputs = .frame t.fb :: s.outputs
    | .drw _ _ n => if Readable s.base n.toNat then t.outputs = .frame t.fb :: s.outputs else t.outputs = s.outputs
    | _ => t.outputs = s.outputs) ∧
  (∀ (s t : State) (rest : List Event), s.inputs = .stop :: rest → step s = .next t → t.fb = 0 ∧ t.outputs = s.outputs)

/-! ### Keyboard and timers -/

/-- Derived from 44_keyboard_timers.md R200 and R201 (the whole-register comparison and the case of no key are the spec's own decision D24): SKP skips when
the held key equals the whole 8-bit V[x], SKNP in exactly the other case; nothing else changes. -/
def Obligations.KeySkipsAreComplements : Prop :=
  ∀ (s : State) (x : Reg),
    exec (.skp x) s = .next { s with
      pc := if s.key.map BitVec.toNat = some (s.getV x).toNat then s.pc + 4 else s.pc + 2 } ∧
    exec (.sknp x) s = .next { s with
      pc := if s.key.map BitVec.toNat = some (s.getV x).toNat then s.pc + 2 else s.pc + 4 }

/-- Derived from 44_keyboard_timers.md R202 (level sensitivity is the spec's own decision D23): with no key LD Vx,K holds: the state does not change at
all (assumption 13); with a key held it loads the key, which stays in the latch. -/
def Obligations.WaitForKeyHoldsOrLoads : Prop :=
  (∀ (s : State) (x : Reg), s.key = none → exec (.ldVxK x) s = .next s) ∧
  (∀ (s : State) (x : Reg) (k : Nibble), s.key = some k → ∃ t, exec (.ldVxK x) s = .next t ∧
    (t.getV x).toNat = k.toNat ∧ SameRegsBut [x] s t ∧ t.pc = s.pc + 2 ∧ SameOutsideRegs s t)

/-- Derived from 44_keyboard_timers.md R202 (a), (d) and 10_state.md R36: the status output shows the hold exactly when an instruction tick finds LD Vx,K
with no key; and then such a tick, by default or listed first, changes nothing but the event list (assumptions 1 and 13). -/
def Obligations.AwaitingKeyIsTheHold : Prop :=
  ∀ s : State,
    ((statusOf s).awaitingKey = true ↔ s.runState = .running ∧ s.fault = none ∧ s.key = none ∧
      ∃ w x, s.fetch = some w ∧ decodeOpcode w = .ldVxK x) ∧
    ((statusOf s).awaitingKey = true → s.inputs = [] ∨ s.inputs.head? = some .iclk →
      step s = .next { s with inputs := s.inputs.tail })

/-- 44_keyboard_timers.md R203 to R205: DT is read into V[x]; DT and ST are set from V[x]; nothing else changes, and sound_on follows ST at once. -/
def Obligations.TimersAreReadAndSet : Prop :=
  ∀ (s : State) (x : Reg),
    (∃ t, exec (.ldVxDT x) s = .next t ∧ t.getV x = s.dt ∧ SameRegsBut [x] s t ∧ t.pc = s.pc + 2 ∧
      SameOutsideRegs s t) ∧
    exec (.ldDTVx x) s = .next { s with dt := s.getV x, pc := s.pc + 2 } ∧
    (∃ t, exec (.ldSTVx x) s = .next t ∧ t = { s with st := s.getV x, pc := s.pc + 2 } ∧
      (soundOn t = true ↔ s.getV x ≠ 0))

/-! ### Faults, timer unit, host -/

/-- Derived from 60_exceptions.md R230 and R223 (the latch and its precision are the spec's own decision D8: assumption 19): a step that latches a fault
changes nothing else but the event list; the record names PC and the fetched opcode, absent for a fetch fault, and the status output
shows it. -/
def Obligations.FaultsArePrecise : Prop :=
  ∀ s t : State, s.fault = none → step s = .next t → t.fault ≠ none →
    t = { s with fault := t.fault, inputs := s.inputs.tail } ∧
    ∃ r, t.fault = some r ∧ r.pc = s.pc ∧ r.opcode = s.fetch ∧ (statusOf t).fault = some r

/-- Derived from 60_exceptions.md R220 and R227 (the conditions are the spec's own decisions D4 to D7: assumption 19): an instruction latches a fault
exactly under the condition R220 names for it; no other condition faults. -/
def Obligations.OnlyTheListedConditionsFault : Prop :=
  ∀ (i : Instr) (s t : State), s.fault = none → exec i s = .next t → (t.fault ≠ none ↔ faultCondition s i)

/-- Derived from 60_exceptions.md R231 and 10_state.md R39 (what a latched fault stops is the spec's own decision D8: assumption 19): while a fault is
latched no step changes it or anything the instruction unit owns, unless the event is stop or an accepted loadRom; and an instruction
tick, by default or listed first (assumption 1), changes nothing at all but the event list, in every run state. -/
def Obligations.LatchedFaultFreezesTheUnit : Prop :=
  (∀ (s t : State) (r : FaultRecord), s.fault = some r → s.inputs.head? ≠ some .stop →
    (∀ bytes a, s.inputs.head? = some (.loadRom bytes a) → 3584 < bytes.length) → step s = .next t →
    t.fault = some r ∧ t.v = s.v ∧ t.pc = s.pc ∧ t.index = s.index ∧ t.stack = s.stack ∧ t.mem = s.mem ∧
    t.fb = s.fb ∧ t.draws = s.draws) ∧
  (∀ s : State, s.fault ≠ none → s.inputs = [] ∨ s.inputs.head? = some .iclk →
    step s = .next { s with inputs := s.inputs.tail })

/-- 60_exceptions.md R234: a timer tick lowers both counters by one and never below 0 while Running, a latched fault or a hold making no difference;
while Paused or Stopped it changes nothing. -/
def Obligations.TimerTickCountsDown : Prop :=
  ∀ (s : State) (rest : List Event), s.inputs = .tclk :: rest →
    (s.runState = .running → ∃ t, step s = .next t ∧ t.dt.toNat = s.dt.toNat - 1 ∧ t.st.toNat = s.st.toNat - 1 ∧
      t = { s with dt := t.dt, st := t.st, inputs := rest }) ∧
    (s.runState ≠ .running → step s = .next { s with inputs := rest })

/-- Derived from 60_exceptions.md R234 (the property of k timer steps): k timer ticks in a row take DT to max(DT - k, 0), and ST alike. -/
def Obligations.TimerTicksAddUp : Prop :=
  ∀ (k : Nat) (s : State) (rest : List Event), s.runState = .running →
    s.inputs = List.replicate k .tclk ++ rest →
    ∃ t : State, core.run k s = .next t ∧ t.dt.toNat = s.dt.toNat - k ∧ t.st.toNat = s.st.toNat - k ∧
      t = { s with dt := t.dt, st := t.st, inputs := rest }

/-- Derived from 60_exceptions.md R237 (the refusal of codes above 15 is the spec's own decision D32, acceptance in every state D12): a key press
replaces the latch, a code above 15 is refused, a release empties it; nothing else changes, in every run state and under a fault. -/
def Obligations.KeyEventsWriteTheLatch : Prop :=
  ∀ (s : State) (rest : List Event) (k : Nat),
    (s.inputs = .pressKey k :: rest →
      (∀ h : k < 16, step s = .next { s with key := some (BitVec.ofFin ⟨k, h⟩), inputs := rest }) ∧
      (15 < k → step s = .next { s with inputs := rest })) ∧
    (s.inputs = .releaseKey :: rest → step s = .next { s with key := none, inputs := rest })

/-- Derived from 70_reset_and_hazards.md R262, 20_memory.md R67 and 60_exceptions.md R226 (the zeroing, what is kept and the refusal are the spec's own
decisions D9 to D13): an accepted loadRom resets the CPU, keeps the font region, places the image from 0x200, zeroes the rest and keeps
FB and key; an oversized image is refused with InvalidRom and changes nothing else. -/
def Obligations.LoadRomResetsAndPlacesTheImage : Prop :=
  ∀ (s : State) (rest : List Event) (bytes : List Byte) (a : Bool), s.inputs = .loadRom bytes a :: rest →
    (bytes.length ≤ 3584 → ∃ t, step s = .next t ∧
      (∀ r, t.getV r = 0) ∧ t.index = 0 ∧ t.dt = 0 ∧ t.st = 0 ∧ t.stack = [] ∧ t.pc = 0x200 ∧ t.fault = none ∧
      (∀ q, q < 0x50 → t.readByte q = s.readByte q) ∧
      (∀ j (h : j < bytes.length), t.readByte (0x200 + j) = bytes[j]) ∧
      (∀ q, 0x50 ≤ q → q < 0x200 ∨ 0x200 + bytes.length ≤ q → t.readByte q = 0) ∧
      t.fb = s.fb ∧ t.key = s.key ∧ t.runState = (if a then .running else .paused) ∧ t.params = s.params ∧
      t.draws = s.draws ∧ t.outputs = s.outputs ∧ t.inputs = rest) ∧
    (3584 < bytes.length → step s = .next { s with outputs := .invalidRom :: s.outputs, inputs := rest })

/-- Derived from 70_reset_and_hazards.md R263 to R266 and 60_exceptions.md R238 (the no-ops and the literal reading of setClockRate are the spec's own
decision D14, the zeros after stop D9, the cleared latch D8, the kept key D12, stop without a frame event D26: assumption 19): start and
pause change run_state alone; stop resets the CPU and clears FB without a frame event, keeping memory and key; setClockRate ends in
Running from every state; observeFrames changes nothing. -/
def Obligations.LifecycleCommandsMoveTheRunState : Prop :=
  ∀ (s : State) (rest : List Event),
    (s.inputs = .start :: rest → step s = .next { s with runState := .running, inputs := rest }) ∧
    (s.inputs = .pause :: rest → step s = .next { s with
      runState := if s.runState = .running then .paused else s.runState, inputs := rest }) ∧
    (s.inputs = .stop :: rest → ∃ t, step s = .next t ∧ (∀ r, t.getV r = 0) ∧
      (∀ k, k < 2048 → t.fb.getLsbD k = false) ∧
      t = { s with
        v := t.v, index := 0, dt := 0, st := 0, stack := [], pc := 0x200, fault := none, fb := t.fb
        runState := .stopped, inputs := rest }) ∧
    (∀ hz, s.inputs = .setClockRate hz :: rest → step s = .next { s with runState := .running, inputs := rest }) ∧
    (s.inputs = .observeFrames :: rest → step s = .next { s with inputs := rest })

/-- Derived from 70_reset_and_hazards.md R260 and R267: in Paused and Stopped neither an instruction tick nor a timer tick changes anything
(an empty list stands for an instruction tick: assumption 1). -/
def Obligations.NoTickStepsUnlessRunning : Prop :=
  ∀ s : State, s.runState ≠ .running →
    (s.inputs = [] ∨ s.inputs.head? = some .iclk ∨ s.inputs.head? = some .tclk) →
    step s = .next { s with inputs := s.inputs.tail }

/-- Derived from 30_encoding.md R93 (where the listing stops is the spec's own choice D25; the text is assumption 14): entry j is at fromAddress + 2j with its
two bytes and the text of what they decode to, and the listing stops where an entry would lie beyond 0xFFF. -/
def Obligations.ListingDecodesWithoutExecuting : Prop :=
  ∀ (s : State) (a count j : Nat), (disassemble s a count)[j]? =
    if j < count ∧ a + 2 * j ≤ 0xFFE then
      some ⟨a + 2 * j, s.readByte (a + 2 * j), s.readByte (a + 2 * j + 1),
        assembly (decodeOpcode (opcodeOf (s.readByte (a + 2 * j)) (s.readByte (a + 2 * j + 1))))⟩
    else none
end

