-- ==== Sys2Proof/Laws/State.lean ====
section
/-! SUPPORT. One lemma per field per named update of State, true by rfl, so that no proof unfolds a record update; and what each update does to the
field it changes. -/

namespace Sys2Proof.Machine

/-! ### setV -/

@[simp] theorem State.setV_pc (s : State) (r : Reg) (b : Byte) : (s.setV r b).pc = s.pc := rfl
@[simp] theorem State.setV_index (s : State) (r : Reg) (b : Byte) : (s.setV r b).index = s.index := rfl
@[simp] theorem State.setV_dt (s : State) (r : Reg) (b : Byte) : (s.setV r b).dt = s.dt := rfl
@[simp] theorem State.setV_st (s : State) (r : Reg) (b : Byte) : (s.setV r b).st = s.st := rfl
@[simp] theorem State.setV_stack (s : State) (r : Reg) (b : Byte) : (s.setV r b).stack = s.stack := rfl
@[simp] theorem State.setV_mem (s : State) (r : Reg) (b : Byte) : (s.setV r b).mem = s.mem := rfl
@[simp] theorem State.setV_fb (s : State) (r : Reg) (b : Byte) : (s.setV r b).fb = s.fb := rfl
@[simp] theorem State.setV_key (s : State) (r : Reg) (b : Byte) : (s.setV r b).key = s.key := rfl
@[simp] theorem State.setV_runState (s : State) (r : Reg) (b : Byte) : (s.setV r b).runState = s.runState := rfl
@[simp] theorem State.setV_fault (s : State) (r : Reg) (b : Byte) : (s.setV r b).fault = s.fault := rfl
@[simp] theorem State.setV_params (s : State) (r : Reg) (b : Byte) : (s.setV r b).params = s.params := rfl
@[simp] theorem State.setV_draws (s : State) (r : Reg) (b : Byte) : (s.setV r b).draws = s.draws := rfl
@[simp] theorem State.setV_inputs (s : State) (r : Reg) (b : Byte) : (s.setV r b).inputs = s.inputs := rfl
@[simp] theorem State.setV_outputs (s : State) (r : Reg) (b : Byte) : (s.setV r b).outputs = s.outputs := rfl

/-! ### setFlag -/

@[simp] theorem State.setFlag_pc (s : State) (b : Byte) : (s.setFlag b).pc = s.pc := rfl
@[simp] theorem State.setFlag_index (s : State) (b : Byte) : (s.setFlag b).index = s.index := rfl
@[simp] theorem State.setFlag_dt (s : State) (b : Byte) : (s.setFlag b).dt = s.dt := rfl
@[simp] theorem State.setFlag_st (s : State) (b : Byte) : (s.setFlag b).st = s.st := rfl
@[simp] theorem State.setFlag_stack (s : State) (b : Byte) : (s.setFlag b).stack = s.stack := rfl
@[simp] theorem State.setFlag_mem (s : State) (b : Byte) : (s.setFlag b).mem = s.mem := rfl
@[simp] theorem State.setFlag_fb (s : State) (b : Byte) : (s.setFlag b).fb = s.fb := rfl
@[simp] theorem State.setFlag_key (s : State) (b : Byte) : (s.setFlag b).key = s.key := rfl
@[simp] theorem State.setFlag_runState (s : State) (b : Byte) : (s.setFlag b).runState = s.runState := rfl
@[simp] theorem State.setFlag_fault (s : State) (b : Byte) : (s.setFlag b).fault = s.fault := rfl
@[simp] theorem State.setFlag_params (s : State) (b : Byte) : (s.setFlag b).params = s.params := rfl
@[simp] theorem State.setFlag_draws (s : State) (b : Byte) : (s.setFlag b).draws = s.draws := rfl
@[simp] theorem State.setFlag_inputs (s : State) (b : Byte) : (s.setFlag b).inputs = s.inputs := rfl
@[simp] theorem State.setFlag_outputs (s : State) (b : Byte) : (s.setFlag b).outputs = s.outputs := rfl

/-! ### advance -/

@[simp] theorem State.advance_v (s : State) : (s.advance).v = s.v := rfl
@[simp] theorem State.advance_index (s : State) : (s.advance).index = s.index := rfl
@[simp] theorem State.advance_dt (s : State) : (s.advance).dt = s.dt := rfl
@[simp] theorem State.advance_st (s : State) : (s.advance).st = s.st := rfl
@[simp] theorem State.advance_stack (s : State) : (s.advance).stack = s.stack := rfl
@[simp] theorem State.advance_mem (s : State) : (s.advance).mem = s.mem := rfl
@[simp] theorem State.advance_fb (s : State) : (s.advance).fb = s.fb := rfl
@[simp] theorem State.advance_key (s : State) : (s.advance).key = s.key := rfl
@[simp] theorem State.advance_runState (s : State) : (s.advance).runState = s.runState := rfl
@[simp] theorem State.advance_fault (s : State) : (s.advance).fault = s.fault := rfl
@[simp] theorem State.advance_params (s : State) : (s.advance).params = s.params := rfl
@[simp] theorem State.advance_draws (s : State) : (s.advance).draws = s.draws := rfl
@[simp] theorem State.advance_inputs (s : State) : (s.advance).inputs = s.inputs := rfl
@[simp] theorem State.advance_outputs (s : State) : (s.advance).outputs = s.outputs := rfl

/-! ### skipIf -/

@[simp] theorem State.skipIf_v (s : State) (c : Bool) : (s.skipIf c).v = s.v := rfl
@[simp] theorem State.skipIf_index (s : State) (c : Bool) : (s.skipIf c).index = s.index := rfl
@[simp] theorem State.skipIf_dt (s : State) (c : Bool) : (s.skipIf c).dt = s.dt := rfl
@[simp] theorem State.skipIf_st (s : State) (c : Bool) : (s.skipIf c).st = s.st := rfl
@[simp] theorem State.skipIf_stack (s : State) (c : Bool) : (s.skipIf c).stack = s.stack := rfl
@[simp] theorem State.skipIf_mem (s : State) (c : Bool) : (s.skipIf c).mem = s.mem := rfl
@[simp] theorem State.skipIf_fb (s : State) (c : Bool) : (s.skipIf c).fb = s.fb := rfl
@[simp] theorem State.skipIf_key (s : State) (c : Bool) : (s.skipIf c).key = s.key := rfl
@[simp] theorem State.skipIf_runState (s : State) (c : Bool) : (s.skipIf c).runState = s.runState := rfl
@[simp] theorem State.skipIf_fault (s : State) (c : Bool) : (s.skipIf c).fault = s.fault := rfl
@[simp] theorem State.skipIf_params (s : State) (c : Bool) : (s.skipIf c).params = s.params := rfl
@[simp] theorem State.skipIf_draws (s : State) (c : Bool) : (s.skipIf c).draws = s.draws := rfl
@[simp] theorem State.skipIf_inputs (s : State) (c : Bool) : (s.skipIf c).inputs = s.inputs := rfl
@[simp] theorem State.skipIf_outputs (s : State) (c : Bool) : (s.skipIf c).outputs = s.outputs := rfl

/-! ### storeBytes -/

@[simp] theorem State.storeBytes_v (s : State) (base : Nat) (bytes : List Byte) : (s.storeBytes base bytes).v = s.v := rfl
@[simp] theorem State.storeBytes_pc (s : State) (base : Nat) (bytes : List Byte) : (s.storeBytes base bytes).pc = s.pc := rfl
@[simp] theorem State.storeBytes_index (s : State) (base : Nat) (bytes : List Byte) : (s.storeBytes base bytes).index = s.index := rfl
@[simp] theorem State.storeBytes_dt (s : State) (base : Nat) (bytes : List Byte) : (s.storeBytes base bytes).dt = s.dt := rfl
@[simp] theorem State.storeBytes_st (s : State) (base : Nat) (bytes : List Byte) : (s.storeBytes base bytes).st = s.st := rfl
@[simp] theorem State.storeBytes_stack (s : State) (base : Nat) (bytes : List Byte) : (s.storeBytes base bytes).stack = s.stack := rfl
@[simp] theorem State.storeBytes_fb (s : State) (base : Nat) (bytes : List Byte) : (s.storeBytes base bytes).fb = s.fb := rfl
@[simp] theorem State.storeBytes_key (s : State) (base : Nat) (bytes : List Byte) : (s.storeBytes base bytes).key = s.key := rfl
@[simp] theorem State.storeBytes_runState (s : State) (base : Nat) (bytes : List Byte) : (s.storeBytes base bytes).runState = s.runState := rfl
@[simp] theorem State.storeBytes_fault (s : State) (base : Nat) (bytes : List Byte) : (s.storeBytes base bytes).fault = s.fault := rfl
@[simp] theorem State.storeBytes_params (s : State) (base : Nat) (bytes : List Byte) : (s.storeBytes base bytes).params = s.params := rfl
@[simp] theorem State.storeBytes_draws (s : State) (base : Nat) (bytes : List Byte) : (s.storeBytes base bytes).draws = s.draws := rfl
@[simp] theorem State.storeBytes_inputs (s : State) (base : Nat) (bytes : List Byte) : (s.storeBytes base bytes).inputs = s.inputs := rfl
@[simp] theorem State.storeBytes_outputs (s : State) (base : Nat) (bytes : List Byte) : (s.storeBytes base bytes).outputs = s.outputs := rfl

/-! ### advanceIndex -/

@[simp] theorem State.advanceIndex_v (s : State) (n : Nat) : (s.advanceIndex n).v = s.v := rfl
@[simp] theorem State.advanceIndex_pc (s : State) (n : Nat) : (s.advanceIndex n).pc = s.pc := rfl
@[simp] theorem State.advanceIndex_dt (s : State) (n : Nat) : (s.advanceIndex n).dt = s.dt := rfl
@[simp] theorem State.advanceIndex_st (s : State) (n : Nat) : (s.advanceIndex n).st = s.st := rfl
@[simp] theorem State.advanceIndex_stack (s : State) (n : Nat) : (s.advanceIndex n).stack = s.stack := rfl
@[simp] theorem State.advanceIndex_mem (s : State) (n : Nat) : (s.advanceIndex n).mem = s.mem := rfl
@[simp] theorem State.advanceIndex_fb (s : State) (n : Nat) : (s.advanceIndex n).fb = s.fb := rfl
@[simp] theorem State.advanceIndex_key (s : State) (n : Nat) : (s.advanceIndex n).key = s.key := rfl
@[simp] theorem State.advanceIndex_runState (s : State) (n : Nat) : (s.advanceIndex n).runState = s.runState := rfl
@[simp] theorem State.advanceIndex_fault (s : State) (n : Nat) : (s.advanceIndex n).fault = s.fault := rfl
@[simp] theorem State.advanceIndex_params (s : State) (n : Nat) : (s.advanceIndex n).params = s.params := rfl
@[simp] theorem State.advanceIndex_draws (s : State) (n : Nat) : (s.advanceIndex n).draws = s.draws := rfl
@[simp] theorem State.advanceIndex_inputs (s : State) (n : Nat) : (s.advanceIndex n).inputs = s.inputs := rfl
@[simp] theorem State.advanceIndex_outputs (s : State) (n : Nat) : (s.advanceIndex n).outputs = s.outputs := rfl

/-! ### drawn -/

@[simp] theorem State.drawn_v (s : State) : (s.drawn).v = s.v := rfl
@[simp] theorem State.drawn_pc (s : State) : (s.drawn).pc = s.pc := rfl
@[simp] theorem State.drawn_index (s : State) : (s.drawn).index = s.index := rfl
@[simp] theorem State.drawn_dt (s : State) : (s.drawn).dt = s.dt := rfl
@[simp] theorem State.drawn_st (s : State) : (s.drawn).st = s.st := rfl
@[simp] theorem State.drawn_stack (s : State) : (s.drawn).stack = s.stack := rfl
@[simp] theorem State.drawn_mem (s : State) : (s.drawn).mem = s.mem := rfl
@[simp] theorem State.drawn_fb (s : State) : (s.drawn).fb = s.fb := rfl
@[simp] theorem State.drawn_key (s : State) : (s.drawn).key = s.key := rfl
@[simp] theorem State.drawn_runState (s : State) : (s.drawn).runState = s.runState := rfl
@[simp] theorem State.drawn_fault (s : State) : (s.drawn).fault = s.fault := rfl
@[simp] theorem State.drawn_params (s : State) : (s.drawn).params = s.params := rfl
@[simp] theorem State.drawn_inputs (s : State) : (s.drawn).inputs = s.inputs := rfl
@[simp] theorem State.drawn_outputs (s : State) : (s.drawn).outputs = s.outputs := rfl

/-! ### emitFrame -/

@[simp] theorem State.emitFrame_v (s : State) : (s.emitFrame).v = s.v := rfl
@[simp] theorem State.emitFrame_pc (s : State) : (s.emitFrame).pc = s.pc := rfl
@[simp] theorem State.emitFrame_index (s : State) : (s.emitFrame).index = s.index := rfl
@[simp] theorem State.emitFrame_dt (s : State) : (s.emitFrame).dt = s.dt := rfl
@[simp] theorem State.emitFrame_st (s : State) : (s.emitFrame).st = s.st := rfl
@[simp] theorem State.emitFrame_stack (s : State) : (s.emitFrame).stack = s.stack := rfl
@[simp] theorem State.emitFrame_mem (s : State) : (s.emitFrame).mem = s.mem := rfl
@[simp] theorem State.emitFrame_fb (s : State) : (s.emitFrame).fb = s.fb := rfl
@[simp] theorem State.emitFrame_key (s : State) : (s.emitFrame).key = s.key := rfl
@[simp] theorem State.emitFrame_runState (s : State) : (s.emitFrame).runState = s.runState := rfl
@[simp] theorem State.emitFrame_fault (s : State) : (s.emitFrame).fault = s.fault := rfl
@[simp] theorem State.emitFrame_params (s : State) : (s.emitFrame).params = s.params := rfl
@[simp] theorem State.emitFrame_draws (s : State) : (s.emitFrame).draws = s.draws := rfl
@[simp] theorem State.emitFrame_inputs (s : State) : (s.emitFrame).inputs = s.inputs := rfl

/-! ### flagThenResult -/

@[simp] theorem State.flagThenResult_index (s : State) (x : Reg) (f b : Byte) : (s.flagThenResult x f b).index = s.index := rfl
@[simp] theorem State.flagThenResult_dt (s : State) (x : Reg) (f b : Byte) : (s.flagThenResult x f b).dt = s.dt := rfl
@[simp] theorem State.flagThenResult_st (s : State) (x : Reg) (f b : Byte) : (s.flagThenResult x f b).st = s.st := rfl
@[simp] theorem State.flagThenResult_stack (s : State) (x : Reg) (f b : Byte) : (s.flagThenResult x f b).stack = s.stack := rfl
@[simp] theorem State.flagThenResult_mem (s : State) (x : Reg) (f b : Byte) : (s.flagThenResult x f b).mem = s.mem := rfl
@[simp] theorem State.flagThenResult_fb (s : State) (x : Reg) (f b : Byte) : (s.flagThenResult x f b).fb = s.fb := rfl
@[simp] theorem State.flagThenResult_key (s : State) (x : Reg) (f b : Byte) : (s.flagThenResult x f b).key = s.key := rfl
@[simp] theorem State.flagThenResult_runState (s : State) (x : Reg) (f b : Byte) : (s.flagThenResult x f b).runState = s.runState := rfl
@[simp] theorem State.flagThenResult_fault (s : State) (x : Reg) (f b : Byte) : (s.flagThenResult x f b).fault = s.fault := rfl
@[simp] theorem State.flagThenResult_params (s : State) (x : Reg) (f b : Byte) : (s.flagThenResult x f b).params = s.params := rfl
@[simp] theorem State.flagThenResult_draws (s : State) (x : Reg) (f b : Byte) : (s.flagThenResult x f b).draws = s.draws := rfl
@[simp] theorem State.flagThenResult_inputs (s : State) (x : Reg) (f b : Byte) : (s.flagThenResult x f b).inputs = s.inputs := rfl
@[simp] theorem State.flagThenResult_outputs (s : State) (x : Reg) (f b : Byte) : (s.flagThenResult x f b).outputs = s.outputs := rfl

/-! ### The changed fields -/

@[simp] theorem State.advance_pc (s : State) : s.advance.pc = s.pc + 2 := rfl

@[simp] theorem State.skipIf_pc (s : State) (c : Bool) :
    (s.skipIf c).pc = if c then s.pc + 4 else s.pc + 2 := rfl

@[simp] theorem State.advanceIndex_index (s : State) (n : Nat) :
    (s.advanceIndex n).index = s.index + BitVec.ofNat 16 n := rfl

@[simp] theorem State.drawn_draws (s : State) : s.drawn.draws = s.draws + 1 := rfl

@[simp] theorem State.emitFrame_outputs (s : State) :
    s.emitFrame.outputs = .frame s.fb :: s.outputs := rfl

@[simp] theorem State.flagThenResult_pc (s : State) (x : Reg) (f b : Byte) :
    (s.flagThenResult x f b).pc = s.pc + 2 := rfl

@[simp] theorem State.storeBytes_mem (s : State) (base : Nat) (bytes : List Byte) :
    (s.storeBytes base bytes).mem = Memory.writeAll s.params.font s.mem base bytes := rfl

end Sys2Proof.Machine
end

