-- ==== Sys2Proof/Laws/Memory.lean ====
section
/-! SUPPORT. The laws of memory: a read after a write, a write leaves every other address alone, and every memory operation keeps the canonical
form. -/

namespace Sys2Proof.Machine

variable (font : Vector Byte 80)

@[simp] theorem Memory.read_nil (a : Nat) : Memory.read font [] a = Memory.unlisted font a := rfl

theorem Memory.read_cons (k : Nat) (b : Byte) (m : Memory) (a : Nat) :
    Memory.read font ((k, b) :: m) a = if k = a then b else Memory.read font m a := rfl

/-- An address at which nothing is listed reads as after construction. -/
theorem Memory.read_unlisted {m : Memory} {a : Nat} (h : ∀ c ∈ m, c.1 ≠ a) :
    Memory.read font m a = Memory.unlisted font a := by
  induction m with
  | nil => rfl
  | cons c m ih =>
    obtain ⟨k, b⟩ := c
    rw [Memory.read_cons, if_neg (h (k, b) (by simp))]
    exact ih (fun c hc => h c (by simp [hc]))

/-- A read in a concatenation where the second part lists nothing at the address. -/
theorem Memory.read_append_left {m n : Memory} {a : Nat} (h : ∀ c ∈ n, c.1 ≠ a) :
    Memory.read font (m ++ n) a = Memory.read font m a := by
  induction m with
  | nil => exact Memory.read_unlisted font h
  | cons c m ih =>
    obtain ⟨k, b⟩ := c
    simp only [List.cons_append, Memory.read_cons, ih]

/-- A read in a concatenation where the first part lists nothing at the address. -/
theorem Memory.read_append_right {m n : Memory} {a : Nat} (h : ∀ c ∈ m, c.1 ≠ a) :
    Memory.read font (m ++ n) a = Memory.read font n a := by
  induction m with
  | nil => rfl
  | cons c m ih =>
    obtain ⟨k, b⟩ := c
    rw [List.cons_append, Memory.read_cons, if_neg (h (k, b) (by simp))]
    exact ih (fun c hc => h c (by simp [hc]))

/-! ### Writing one byte -/

theorem Memory.read_listed_other {m : Memory} {a q : Nat} (b : Byte) (h : q ≠ a) :
    Memory.read font (Memory.listed font a b m) q = Memory.read font m q := by
  unfold Memory.listed
  split
  · rfl
  · rw [Memory.read_cons, if_neg (fun e => h e.symm)]

theorem Memory.read_listed_same {m : Memory} {a : Nat} (b : Byte) (h : ∀ c ∈ m, c.1 ≠ a) :
    Memory.read font (Memory.listed font a b m) a = b := by
  unfold Memory.listed
  split
  · rename_i hb
    rw [Memory.read_unlisted font h, hb]
  · simp [Memory.read_cons]

/-- A write leaves every other address alone. -/
theorem Memory.read_write_other (m : Memory) {a q : Nat} (b : Byte) (h : q ≠ a) :
    Memory.read font (Memory.write font m a b) q = Memory.read font m q := by
  induction m with
  | nil => exact Memory.read_listed_other font b h
  | cons c m ih =>
    obtain ⟨k, e⟩ := c
    unfold Memory.write
    split
    · exact Memory.read_listed_other font b h
    · split
      · rename_i hk
        rw [Memory.read_listed_other font b h, Memory.read_cons, if_neg (by omega)]
      · rw [Memory.read_cons, Memory.read_cons, ih]

/-- A read after a write to the same address gives the byte written. -/
theorem Memory.read_write_same {m : Memory} (a : Nat) (b : Byte) (hs : m.Pairwise (fun p q => p.1 < q.1)) :
    Memory.read font (Memory.write font m a b) a = b := by
  induction m with
  | nil => exact Memory.read_listed_same font b (by simp)
  | cons c m ih =>
    obtain ⟨k, e⟩ := c
    rw [List.pairwise_cons] at hs
    unfold Memory.write
    split
    · rename_i hk
      refine Memory.read_listed_same font b (fun c hc => ?_)
      rcases List.mem_cons.mp hc with rfl | hc
      · exact fun h => by simp at h; omega
      · have := hs.1 c hc
        simp at this
        omega
    · split
      · rename_i hk
        refine Memory.read_listed_same font b (fun c hc => ?_)
        have := hs.1 c hc
        simp at this
        omega
      · rename_i h1 h2
        rw [Memory.read_cons, if_neg (by omega)]
        exact ih hs.2

/-- A listed entry after a write is an old one or the written one. -/
theorem Memory.mem_write {m : Memory} {a : Nat} {b : Byte} {c : Host.Cell} (h : c ∈ Memory.write font m a b) :
    c ∈ m ∨ (c = (a, b) ∧ b ≠ Memory.unlisted font a) := by
  induction m with
  | nil =>
    unfold Memory.write Memory.listed at h
    split at h
    · simp at h
    · simp at h
      exact .inr ⟨h, by assumption⟩
  | cons d m ih =>
    obtain ⟨k, e⟩ := d
    unfold Memory.write Memory.listed at h
    split at h
    · split at h
      · exact .inl h
      · rcases List.mem_cons.mp h with h | h
        · exact .inr ⟨h, by assumption⟩
        · exact .inl h
    · split at h
      · split at h
        · exact .inl (by simp [h])
        · rcases List.mem_cons.mp h with h | h
          · exact .inr ⟨h, by assumption⟩
          · exact .inl (by simp [h])
      · rcases List.mem_cons.mp h with h | h
        · exact .inl (by simp [h])
        · rcases ih h with h | h
          · exact .inl (by simp [h])
          · exact .inr h

/-- A write keeps the addresses strictly rising. -/
theorem Memory.write_sorted {m : Memory} (a : Nat) (b : Byte) (hs : m.Pairwise (fun p q => p.1 < q.1)) :
    (Memory.write font m a b).Pairwise (fun p q => p.1 < q.1) := by
  induction m with
  | nil =>
    unfold Memory.write Memory.listed
    split <;> simp
  | cons d m ih =>
    obtain ⟨k, e⟩ := d
    have hs' := List.pairwise_cons.mp hs
    unfold Memory.write
    split
    · rename_i hk
      unfold Memory.listed
      split
      · exact hs
      · refine List.pairwise_cons.mpr ⟨fun c hc => ?_, hs⟩
        rcases List.mem_cons.mp hc with rfl | hc
        · exact hk
        · have := hs'.1 c hc
          simp at this ⊢
          omega
    · split
      · rename_i hk
        subst hk
        unfold Memory.listed
        split
        · exact hs'.2
        · exact List.pairwise_cons.mpr ⟨hs'.1, hs'.2⟩
      · rename_i h1 h2
        refine List.pairwise_cons.mpr ⟨fun c hc => ?_, ih hs'.2⟩
        rcases Memory.mem_write font hc with hc | ⟨rfl, -⟩
        · exact hs'.1 c hc
        · simp
          omega

/-- A write to an address of Mem keeps the canonical form. -/
theorem Memory.write_wf {m : Memory} {a : Nat} (b : Byte) (ha : a < Config.memSize) (h : Memory.wf font m) :
    Memory.wf font (Memory.write font m a b) := by
  refine ⟨Memory.write_sorted font a b h.1, fun c hc => ?_⟩
  rcases Memory.mem_write font hc with hc | ⟨rfl, hb⟩
  · exact h.2 c hc
  · exact ⟨ha, hb⟩

/-! ### Writing several bytes -/

theorem Memory.writeAll_sorted {m : Memory} (base : Nat) (bytes : List Byte)
    (hs : m.Pairwise (fun p q => p.1 < q.1)) :
    (Memory.writeAll font m base bytes).Pairwise (fun p q => p.1 < q.1) := by
  induction bytes generalizing m base with
  | nil => exact hs
  | cons b bytes ih => exact ih (base + 1) (Memory.write_sorted font base b hs)

/-- Writing bytes that all lie in Mem keeps the canonical form. -/
theorem Memory.writeAll_wf {m : Memory} (base : Nat) (bytes : List Byte)
    (hb : base + bytes.length ≤ Config.memSize) (h : Memory.wf font m) :
    Memory.wf font (Memory.writeAll font m base bytes) := by
  induction bytes generalizing m base with
  | nil => exact h
  | cons b bytes ih =>
    simp only [List.length_cons] at hb
    exact ih (base + 1) (by omega) (Memory.write_wf font b (by omega) h)

/-- Writing bytes leaves every address outside them alone. -/
theorem Memory.read_writeAll_outside (m : Memory) (base : Nat) (bytes : List Byte) {a : Nat}
    (h : a < base ∨ base + bytes.length ≤ a) :
    Memory.read font (Memory.writeAll font m base bytes) a = Memory.read font m a := by
  induction bytes generalizing m base with
  | nil => rfl
  | cons b bytes ih =>
    simp only [List.length_cons] at h
    rw [Memory.writeAll, ih _ (base + 1) (by omega), Memory.read_write_other font m b (by omega)]

/-- Writing bytes puts the k-th one at base + k. -/
theorem Memory.read_writeAll_inside {m : Memory} (base : Nat) (bytes : List Byte)
    (hs : m.Pairwise (fun p q => p.1 < q.1)) {k : Nat} (hk : k < bytes.length) :
    Memory.read font (Memory.writeAll font m base bytes) (base + k) = bytes[k] := by
  induction bytes generalizing m base k with
  | nil => simp at hk
  | cons b bytes ih =>
    cases k with
    | zero =>
      rw [Memory.writeAll, Memory.read_writeAll_outside font _ _ _ (by omega)]
      simpa using Memory.read_write_same font base b hs
    | succ k =>
      simp only [List.length_cons] at hk
      have := ih (base + 1) (Memory.write_sorted font base b hs) (k := k) (by omega)
      rw [Memory.writeAll, show base + (k + 1) = base + 1 + k by omega, this]
      simp

/-- A listed entry after writing bytes is an old one or lies among the written addresses. -/
theorem Memory.mem_writeAll {m : Memory} {base : Nat} {bytes : List Byte} {c : Host.Cell}
    (h : c ∈ Memory.writeAll font m base bytes) : c ∈ m ∨ (base ≤ c.1 ∧ c.1 < base + bytes.length) := by
  induction bytes generalizing m base with
  | nil => exact .inl h
  | cons b bytes ih =>
    simp only [List.length_cons]
    rcases ih h with h | h
    · rcases Memory.mem_write font h with h | ⟨rfl, -⟩
      · exact .inl h
      · exact .inr (by simp)
    · exact .inr (by omega)

/-! ### Loading a program image -/

/-- The cells of an image lie in its range and are not 0. -/
theorem Memory.mem_image {a : Nat} {bytes : List Byte} {c : Host.Cell} (h : c ∈ Memory.image a bytes) :
    (a ≤ c.1 ∧ c.1 < a + bytes.length) ∧ c.2 ≠ 0 := by
  induction bytes generalizing a with
  | nil => simp [Memory.image] at h
  | cons b bytes ih =>
    simp only [List.length_cons]
    unfold Memory.image at h
    split at h
    · have := ih h
      exact ⟨by omega, this.2⟩
    · rcases List.mem_cons.mp h with rfl | h
      · exact ⟨by simp, by assumption⟩
      · have := ih h
        exact ⟨by omega, this.2⟩

theorem Memory.image_sorted (a : Nat) (bytes : List Byte) :
    (Memory.image a bytes).Pairwise (fun p q => p.1 < q.1) := by
  induction bytes generalizing a with
  | nil => simp [Memory.image]
  | cons b bytes ih =>
    unfold Memory.image
    split
    · exact ih (a + 1)
    · refine List.pairwise_cons.mpr ⟨fun c hc => ?_, ih (a + 1)⟩
      have := (Memory.mem_image hc).1
      simp
      omega

/-- An address outside the font reads as 0 where nothing is listed. -/
theorem Memory.unlisted_zero {a : Nat} (h : 0x50 ≤ a) : Memory.unlisted font a = 0 := by
  unfold Memory.unlisted
  rw [dif_neg (by omega)]

/-- The image read back: byte k stands at a + k. -/
theorem Memory.read_image {a : Nat} (ha : 0x50 ≤ a) (bytes : List Byte) {k : Nat} (hk : k < bytes.length) :
    Memory.read font (Memory.image a bytes) (a + k) = bytes[k] := by
  induction bytes generalizing a k with
  | nil => simp at hk
  | cons b bytes ih =>
    have hout : ∀ c ∈ Memory.image (a + 1) bytes, c.1 ≠ a := fun c hc => by
      have := (Memory.mem_image hc).1
      omega
    cases k with
    | zero =>
      unfold Memory.image
      split
      · rename_i hb
        change Memory.read font (Memory.image (a + 1) bytes) a = b
        rw [Memory.read_unlisted font hout, Memory.unlisted_zero font (by omega), hb]
      · simp [Memory.read_cons]
    | succ k =>
      simp only [List.length_cons] at hk
      have := ih (a := a + 1) (by omega) (k := k) (by omega)
      have e : a + (k + 1) = a + 1 + k := by omega
      unfold Memory.image
      split
      · rw [e, this]
        simp
      · rw [Memory.read_cons, if_neg (by omega), e, this]
        simp

/-- After loadRom the font region reads as before. -/
theorem Memory.read_loaded_font (m : Memory) (bytes : List Byte) {a : Nat} (ha : a < 0x50) :
    Memory.read font (Memory.loaded m bytes) a = Memory.read font m a := by
  unfold Memory.loaded
  rw [Memory.read_append_left font (fun c hc => by have := (Memory.mem_image hc).1; simp only [Config.romOrigin] at this; omega)]
  induction m with
  | nil => rfl
  | cons c m ih =>
    obtain ⟨k, b⟩ := c
    rw [List.filter_cons]
    split
    · rw [Memory.read_cons, Memory.read_cons, ih]
    · rename_i hk
      rw [ih, Memory.read_cons, if_neg (by simp at hk; omega)]

/-- After loadRom the image stands from 0x200. -/
theorem Memory.read_loaded_image (m : Memory) (bytes : List Byte) {k : Nat} (hk : k < bytes.length) :
    Memory.read font (Memory.loaded m bytes) (0x200 + k) = bytes[k] := by
  unfold Memory.loaded
  rw [Memory.read_append_right font (fun c hc => by simp at hc; omega)]
  exact Memory.read_image font (a := 0x200) (by omega) bytes hk

/-- After loadRom every address outside the font and the image reads as 0. -/
theorem Memory.read_loaded_zero (m : Memory) (bytes : List Byte) {a : Nat} (ha : 0x50 ≤ a)
    (ho : a < 0x200 ∨ 0x200 + bytes.length ≤ a) : Memory.read font (Memory.loaded m bytes) a = 0 := by
  unfold Memory.loaded
  rw [Memory.read_append_right font (fun c hc => by simp at hc; omega),
    Memory.read_unlisted font (fun c hc => by have := (Memory.mem_image hc).1; simp only [Config.romOrigin] at this; omega),
    Memory.unlisted_zero font ha]

/-- loadRom of an accepted image keeps the canonical form. -/
theorem Memory.loaded_wf {m : Memory} {bytes : List Byte} (hl : bytes.length ≤ Config.maxRom)
    (h : Memory.wf font m) : Memory.wf font (Memory.loaded m bytes) := by
  unfold Memory.loaded
  constructor
  · refine List.pairwise_append.mpr ⟨h.1.filter _, Memory.image_sorted _ _, fun c hc d hd => ?_⟩
    have := (Memory.mem_image hd).1
    simp at hc this
    omega
  · intro c hc
    rcases List.mem_append.mp hc with hc | hc
    · exact h.2 c (List.mem_of_mem_filter hc)
    · have hi := Memory.mem_image hc
      simp only [Config.romOrigin, Config.maxRom] at hi hl
      refine ⟨by simp only [Config.memSize]; omega, ?_⟩
      rw [Memory.unlisted_zero font (by omega)]
      exact hi.2

/-! ### Reading through the state -/

/-- Memory reads are a function of memory and the font alone. -/
theorem State.readByte_congr {s t : State} (hm : t.mem = s.mem) (hp : t.params = s.params) (a : Nat) :
    t.readByte a = s.readByte a := by
  unfold State.readByte
  rw [hm, hp]

/-- Storing bytes leaves every address outside them alone. -/
theorem State.readByte_storeBytes_outside (s : State) (base : Nat) (bytes : List Byte) {a : Nat}
    (h : a < base ∨ base + bytes.length ≤ a) : (s.storeBytes base bytes).readByte a = s.readByte a :=
  Memory.read_writeAll_outside _ _ _ _ h

/-- Storing bytes puts the k-th one at base + k. -/
theorem State.readByte_storeBytes_inside {s : State} (base : Nat) (bytes : List Byte)
    (h : Memory.wf s.params.font s.mem) {k : Nat} (hk : k < bytes.length) :
    (s.storeBytes base bytes).readByte (base + k) = bytes[k] :=
  Memory.read_writeAll_inside _ _ _ h.1 hk

end Sys2Proof.Machine
end

