-- ==== Sys2Proof/Laws/Registers.lean ====
section
/-! SUPPORT. Reading and writing registers: a read after a write, and that every other update leaves the registers alone. -/

namespace Sys2Proof.Machine

/-- A register read after a register write (10_state.md R21). -/
theorem State.getV_setV (s : State) (r q : Reg) (b : Byte) :
    (s.setV r b).getV q = if q = r then b else s.getV q := by
  unfold State.getV State.setV
  by_cases h : q = r
  · subst h
    simp
  · have hn : r.toNat ≠ q.toNat := fun e => h (BitVec.eq_of_toNat_eq e.symm)
    simp [h, hn]

@[simp] theorem State.getV_setV_same (s : State) (r : Reg) (b : Byte) : (s.setV r b).getV r = b := by
  simp [State.getV_setV]

theorem State.getV_setV_other (s : State) {r q : Reg} (b : Byte) (h : q ≠ r) :
    (s.setV r b).getV q = s.getV q := by
  simp [State.getV_setV, h]

/-- A register read after the flag was written (10_state.md R22). -/
theorem State.getV_setFlag (s : State) (q : Reg) (b : Byte) :
    (s.setFlag b).getV q = if q = regF then b else s.getV q :=
  s.getV_setV regF q b

/-- Registers are a function of the register file alone. -/
theorem State.getV_congr {s t : State} (h : t.v = s.v) (r : Reg) : t.getV r = s.getV r := by
  unfold State.getV
  simp [h]

@[simp] theorem State.getV_advance (s : State) (r : Reg) : s.advance.getV r = s.getV r := rfl

@[simp] theorem State.getV_skipIf (s : State) (c : Bool) (r : Reg) : (s.skipIf c).getV r = s.getV r := rfl

@[simp] theorem State.getV_storeBytes (s : State) (base : Nat) (bytes : List Byte) (r : Reg) :
    (s.storeBytes base bytes).getV r = s.getV r := rfl

@[simp] theorem State.getV_advanceIndex (s : State) (n : Nat) (r : Reg) :
    (s.advanceIndex n).getV r = s.getV r := rfl

@[simp] theorem State.getV_drawn (s : State) (r : Reg) : s.drawn.getV r = s.getV r := rfl

@[simp] theorem State.getV_emitFrame (s : State) (r : Reg) : s.emitFrame.getV r = s.getV r := rfl

/-- A register read after the flag and then the result were written: the result wins (41_alu.md R143). -/
theorem State.getV_flagThenResult (s : State) (x q : Reg) (f b : Byte) :
    (s.flagThenResult x f b).getV q = if q = x then b else if q = regF then f else s.getV q := by
  unfold State.flagThenResult
  rw [State.getV_advance, State.getV_setV, State.getV_setFlag]

/-! ### Loading a range of registers -/

/-- The fold of State.loadRange changes only the register file. -/
theorem loadFold_fields (f : Nat → Byte) (l : List Nat) (t : State) :
    l.foldl (fun t k => t.setV (BitVec.ofNat 4 k) (f k)) t =
      { t with v := (l.foldl (fun t k => t.setV (BitVec.ofNat 4 k) (f k)) t).v } := by
  induction l generalizing t with
  | nil => rfl
  | cons k l ih => exact (ih _).trans rfl

/-- State.loadRange changes only the register file. -/
theorem State.loadRange_eq (s : State) (base n : Nat) :
    s.loadRange base n = { s with v := (s.loadRange base n).v } :=
  loadFold_fields _ _ s

/-- A register read after a range was loaded (42_index_memory.md R165): V[k] holds the byte at base + k for k below n. -/
theorem State.getV_loadRange (s : State) (base n : Nat) (hn : n ≤ 16) (q : Reg) :
    (s.loadRange base n).getV q = if q.toNat < n then s.readByte (base + q.toNat) else s.getV q := by
  unfold State.loadRange
  induction n with
  | zero => simp
  | succ n ih =>
    rw [List.range_succ, List.foldl_append]
    simp only [List.foldl_cons, List.foldl_nil, State.getV_setV]
    rw [ih (by omega)]
    have hk : (BitVec.ofNat 4 n).toNat = n := by simp; omega
    by_cases h : q = BitVec.ofNat 4 n
    · subst h
      simp only [hk]
      simp
    · have hne : q.toNat ≠ n := fun e => h (BitVec.eq_of_toNat_eq (by rw [hk, e]))
      simp only [h, if_false]
      by_cases hl : q.toNat < n
      · rw [if_pos hl, if_pos (by omega)]
      · rw [if_neg hl, if_neg (by omega)]

end Sys2Proof.Machine
end

