-- ==== Sys2Proof/Laws/Ops.lean ====
section
/-! SUPPORT. One lemma per shared operation of the meanings: address checks, taking a fault, the flag-and-result write, the shift, the draw. -/

namespace Sys2Proof.Machine

/-! ### Flag values -/

@[simp] theorem flagOf_true : flagOf true = 1 := rfl

@[simp] theorem flagOf_false : flagOf false = 0 := rfl

/-- A flag is 1 exactly when its condition holds. -/
theorem flagOf_eq_one (c : Bool) : flagOf c = 1 ↔ c = true := by
  cases c <;> simp [flagOf]

/-! ### Address checks (20_memory.md R56 to R58) -/

/-- No address fails exactly when each one passes its check. -/
theorem firstFault_eq_none {check : Nat → Option FaultCause} {base n : Nat} :
    firstFault check base n = none ↔ ∀ k < n, check (base + k) = none := by
  simp [firstFault]

/-- A reported fault is that of an address whose predecessors all pass: the lowest failing one. -/
theorem firstFault_eq_some {check : Nat → Option FaultCause} {base n : Nat} {c : FaultCause} :
    firstFault check base n = some c ↔
      ∃ k < n, check (base + k) = some c ∧ ∀ j < k, check (base + j) = none := by
  induction n with
  | zero => simp [firstFault]
  | succ n ih =>
    have step : firstFault check base (n + 1) =
        (firstFault check base n).or (check (base + n)) := by
      simp [firstFault, List.range_succ, List.findSome?_append]
    rw [step]
    cases hf : firstFault check base n with
    | none =>
      rw [firstFault_eq_none] at hf
      simp only [Option.none_or]
      constructor
      · exact fun h => ⟨n, by omega, h, hf⟩
      · rintro ⟨k, hk, h1, h2⟩
        rcases Nat.lt_succ_iff_lt_or_eq.mp hk with h | rfl
        · rw [hf k h] at h1
          cases h1
        · exact h1
    | some d =>
      simp only [Option.some_or, Option.some.injEq]
      rw [hf] at ih
      simp only [Option.some.injEq] at ih
      constructor
      · intro h
        obtain ⟨k, hk, h1⟩ := ih.mp h
        exact ⟨k, by omega, h1⟩
      · rintro ⟨k, hk, h1, h2⟩
        rcases Nat.lt_succ_iff_lt_or_eq.mp hk with h | rfl
        · exact ih.mpr ⟨k, h, h1, h2⟩
        · rw [firstFault_eq_none.mpr h2] at hf
          cases hf

/-- A range read faults exactly when it is not empty and passes 0xFFF; the lowest address above 0xFFF is reported. -/
theorem firstFault_read (base n : Nat) :
    firstFault readFault base n =
      if n = 0 ∨ base + n ≤ 0x1000 then none else some (.dataOutOfRange (max base 0x1000)) := by
  split
  · rw [firstFault_eq_none]
    intro k hk
    simp only [readFault]
    rw [if_neg (by omega)]
  · rw [firstFault_eq_some]
    refine ⟨max base 0x1000 - base, by omega, ?_, fun j hj => ?_⟩
    · rw [show base + (max base 0x1000 - base) = max base 0x1000 by omega]
      simp only [readFault]
      rw [if_pos (by omega)]
    · simp only [readFault]
      rw [if_neg (by omega)]

/-- A range store of at most 16 bytes faults at its base when that is below 0x200 under LOW_WRITE_POLICY = fault, else as a read of the range. -/
theorem firstFault_write (p : LowWritePolicy) (base n : Nat) (hn : 0 < n) :
    firstFault (writeFault p) base n =
      if base < 0x200 ∧ p = .fault then some (.writeBelowOrigin base)
      else firstFault readFault base n := by
  split
  · rename_i h
    rw [firstFault_eq_some]
    refine ⟨0, hn, ?_, fun j hj => by omega⟩
    simp only [writeFault, Config.romOrigin, Nat.add_zero]
    rw [if_neg (by omega), if_pos h]
  · rename_i h
    unfold firstFault
    congr 1
    funext k
    simp only [writeFault, readFault, Config.romOrigin]
    split
    · rfl
    · rw [if_neg (fun hk => h ⟨by omega, hk.2⟩)]

/-! ### Taking a fault -/

theorem raise_eq (c : FaultCause) (w : Option Word) (s : State) :
    raise c w s = .next { s with fault := some ⟨c, s.pc, w⟩ } := rfl

@[simp] theorem checked_none (w : Word) (s t : State) : checked none w s t = .next t := rfl

@[simp] theorem checked_some (c : FaultCause) (w : Word) (s t : State) :
    checked (some c) w s t = .next { s with fault := some ⟨c, s.pc, some w⟩ } := rfl

/-- What a checked effect can answer: the effect, or the fault of the failing address with nothing else changed. -/
theorem checked_cases {f : Option FaultCause} {w : Word} {s t u : State} (h : checked f w s t = .next u) :
    (f = none ∧ u = t) ∨ ∃ c, f = some c ∧ u = { s with fault := some ⟨c, s.pc, some w⟩ } := by
  cases f with
  | none => exact .inl ⟨rfl, by simpa using h.symm⟩
  | some c => exact .inr ⟨c, rfl, by simpa using h.symm⟩

/-! ### The flag-and-result write and the shift -/

/-- The flag-and-result write changes registers and PC alone. -/
theorem State.flagThenResult_eq (s : State) (x : Reg) (f b : Byte) :
    s.flagThenResult x f b = { s with v := (s.flagThenResult x f b).v, pc := s.pc + 2 } := rfl

/-- A shift is a flag-and-result write; with SHIFT_SOURCE = VX the result is computed from Vx as the flag write left it (41_alu.md R138, R143,
R144). -/
theorem State.shifted_eq (s : State) (x y : Reg) (f g : Byte → Byte) :
    s.shifted x y f g =
      match s.params.shiftSource with
      | .vx => s.flagThenResult x (f (s.getV x)) (g (if x = regF then f (s.getV x) else s.getV x))
      | .vy => s.flagThenResult x (f (s.getV y)) (g (s.getV y)) := by
  unfold State.shifted
  cases s.params.shiftSource with
  | vx =>
    simp only [State.flagThenResult]
    rw [State.getV_setFlag]
  | vy => rfl

/-! ### The draw -/

/-- A toggled cell changes that cell alone. -/
theorem getLsbD_toggleCell (fb : Frame) {k j : Nat} (hk : k < 2048) :
    (toggleCell fb k).getLsbD j = (fb.getLsbD j ^^ decide (j = k)) := by
  unfold toggleCell
  rw [BitVec.getLsbD_xor]
  congr 1
  rw [BitVec.getLsbD_shiftLeft, BitVec.getLsbD_one]
  by_cases h : j = k
  · subst h
    simp [hk]
  · by_cases h1 : j < k
    · simp [h, h1]
    · have : j - k ≠ 0 := by omega
      simp [h, this]

/-- A drawn bit changes its cell alone. -/
theorem getLsbD_drawBit (bit : Bool) {k j : Nat} (hk : k < 2048) (acc : Frame × Bool) :
    (drawBit bit k acc).1.getLsbD j = (acc.1.getLsbD j ^^ (bit && decide (j = k))) := by
  unfold drawBit
  cases bit with
  | true => simp [getLsbD_toggleCell _ hk]
  | false => simp

theorem drawBit_collision (bit : Bool) (k : Nat) (acc : Frame × Bool) :
    (drawBit bit k acc).2 = (acc.2 || (bit && acc.1.getLsbD k)) := by
  unfold drawBit
  cases bit <;> simp

theorem cellIndex_lt {px py : Nat} (hx : px < 64) (hy : py < 32) : cellIndex px py < 2048 := by
  simp only [cellIndex, Config.width]
  omega

theorem cellIndex_inj {px py qx qy : Nat} (hx : px < 64) (hq : qx < 64)
    (h : cellIndex px py = cellIndex qx qy) : px = qx ∧ py = qy := by
  simp only [cellIndex, Config.width] at h
  omega

end Sys2Proof.Machine
end

