-- ==== Sys2Proof/Laws/Draw.lean ====
section
/-! SUPPORT. What drawing a sprite does to each cell and when it collides (43_display.md R181, corner cases (a) to (d)): every covered cell is
toggled exactly once. -/

namespace Sys2Proof.Machine

/-- The columns 0 to n - 1 of a sprite row cover column px with a 1 bit. -/
abbrev rowCovers (byte : Byte) (vx n px : Nat) : Prop :=
  ∃ c, c < n ∧ (vx + c) % 64 = px ∧ byte.getLsbD (7 - c) = true

/-- The rows 0 to n - 1 of a sprite cover the cell of column px and row py with a 1 bit. -/
abbrev rowsCover (byteAt : Nat → Byte) (base vx vy n px py : Nat) : Prop :=
  ∃ r, r < n ∧ (vy + r) % 32 = py ∧ rowCovers (byteAt (base + r)) vx 8 px

/-- The fold of a sprite row over its first n columns. -/
theorem drawRow_fold (byte : Byte) (vx py : Nat) (hpy : py < 32) (acc : Frame × Bool) (n : Nat) (hn : n ≤ 8) :
    let out := (List.range n).foldl
      (fun acc c => drawBit (byte.getLsbD (7 - c)) (cellIndex ((vx + c) % Config.width) py) acc) acc
    (∀ px qy, px < 64 → qy < 32 → out.1.getLsbD (cellIndex px qy) =
      (acc.1.getLsbD (cellIndex px qy) ^^ decide (qy = py ∧ rowCovers byte vx n px))) ∧
    (out.2 = true ↔ acc.2 = true ∨ ∃ px, px < 64 ∧ rowCovers byte vx n px ∧
      acc.1.getLsbD (cellIndex px py) = true) := by
  induction n with
  | zero => simp [rowCovers]
  | succ n ih =>
    obtain ⟨ih1, ih2⟩ := ih (by omega)
    simp only [List.range_succ, List.foldl_append, List.foldl_cons, List.foldl_nil]
    have hk : cellIndex ((vx + n) % Config.width) py < 2048 :=
      cellIndex_lt (Nat.mod_lt _ (by simp)) hpy
    have hfresh : ¬ rowCovers byte vx n ((vx + n) % 64) := by
      rintro ⟨c, hc, he, -⟩
      omega
    have hcov : ∀ px, rowCovers byte vx (n + 1) px ↔
        rowCovers byte vx n px ∨ ((vx + n) % 64 = px ∧ byte.getLsbD (7 - n) = true) := by
      intro px
      constructor
      · rintro ⟨c, hc, h⟩
        rcases Nat.lt_succ_iff_lt_or_eq.mp hc with hc | rfl
        · exact .inl ⟨c, hc, h⟩
        · exact .inr h
      · rintro (⟨c, hc, h⟩ | h)
        · exact ⟨c, by omega, h⟩
        · exact ⟨n, by omega, h⟩
    constructor
    · intro px qy hx hy
      rw [getLsbD_drawBit _ hk, ih1 px qy hx hy, Bool.xor_assoc]
      congr 1
      have hidx : cellIndex px qy = cellIndex ((vx + n) % Config.width) py ↔ px = (vx + n) % 64 ∧ qy = py :=
        ⟨fun h => cellIndex_inj hx (Nat.mod_lt _ (by simp)) h, fun h => by rw [h.1, h.2]⟩
      rw [show decide (cellIndex px qy = cellIndex ((vx + n) % Config.width) py) =
        decide (px = (vx + n) % 64 ∧ qy = py) by simp only [hidx]]
      by_cases hq : qy = py
      · by_cases hp : px = (vx + n) % 64
        · subst hp
          cases hb : byte.getLsbD (7 - n) <;> simp [hq, hfresh, hcov, hb]
        · have hp' : ¬ (vx + n) % 64 = px := fun h => hp h.symm
          simp [hq, hcov, hp, hp']
      · simp [hq]
    · rw [drawBit_collision, Bool.or_eq_true, ih2, Bool.and_eq_true, or_assoc]
      refine or_congr_right ?_
      have hcell := ih1 ((vx + n) % 64) py (Nat.mod_lt _ (by decide)) hpy
      rw [show decide (py = py ∧ rowCovers byte vx n ((vx + n) % 64)) = false by simp [hfresh],
        Bool.xor_false] at hcell
      rw [show (vx + n) % Config.width = (vx + n) % 64 from rfl, hcell]
      constructor
      · rintro (⟨px, hx, h, hf⟩ | ⟨hb, hf⟩)
        · exact ⟨px, hx, (hcov px).mpr (.inl h), hf⟩
        · exact ⟨_, Nat.mod_lt _ (by decide), (hcov _).mpr (.inr ⟨rfl, hb⟩), hf⟩
      · rintro ⟨px, hx, h, hf⟩
        rcases (hcov px).mp h with h | ⟨rfl, hb⟩
        · exact .inl ⟨px, hx, h, hf⟩
        · exact .inr ⟨hb, hf⟩

/-- What a sprite row does: it toggles the cells its 1 bits cover and collides when one of them was 1. -/
theorem drawRow_spec (byte : Byte) (vx py : Nat) (hpy : py < 32) (acc : Frame × Bool) :
    (∀ px qy, px < 64 → qy < 32 → (drawRow byte vx py acc).1.getLsbD (cellIndex px qy) =
      (acc.1.getLsbD (cellIndex px qy) ^^ decide (qy = py ∧ rowCovers byte vx 8 px))) ∧
    ((drawRow byte vx py acc).2 = true ↔ acc.2 = true ∨ ∃ px, px < 64 ∧ rowCovers byte vx 8 px ∧
      acc.1.getLsbD (cellIndex px py) = true) :=
  drawRow_fold byte vx py hpy acc 8 (Nat.le_refl 8)

/-- What a sprite does: it toggles the cells its 1 bits cover, each once, and collides when one of them was 1. -/
theorem drawSprite_spec (byteAt : Nat → Byte) (base vx vy : Nat) (fb : Frame) (n : Nat) (hn : n ≤ 32) :
    (∀ px py, px < 64 → py < 32 → (drawSprite byteAt base vx vy n fb).1.getLsbD (cellIndex px py) =
      (fb.getLsbD (cellIndex px py) ^^ decide (rowsCover byteAt base vx vy n px py))) ∧
    ((drawSprite byteAt base vx vy n fb).2 = true ↔ ∃ px py, px < 64 ∧ py < 32 ∧
      rowsCover byteAt base vx vy n px py ∧ fb.getLsbD (cellIndex px py) = true) := by
  induction n with
  | zero => simp [drawSprite, rowsCover]
  | succ n ih =>
    obtain ⟨ih1, ih2⟩ := ih (by omega)
    have hstep : drawSprite byteAt base vx vy (n + 1) fb =
        drawRow (byteAt (base + n)) vx ((vy + n) % 32) (drawSprite byteAt base vx vy n fb) := by
      simp [drawSprite, List.range_succ]
    have hpy : (vy + n) % 32 < 32 := Nat.mod_lt _ (by decide)
    obtain ⟨hr1, hr2⟩ := drawRow_spec (byteAt (base + n)) vx ((vy + n) % 32) hpy
      (drawSprite byteAt base vx vy n fb)
    have hfresh : ∀ px, ¬ rowsCover byteAt base vx vy n px ((vy + n) % 32) := by
      rintro px ⟨r, hr, he, -⟩
      omega
    have hcov : ∀ px py, rowsCover byteAt base vx vy (n + 1) px py ↔
        rowsCover byteAt base vx vy n px py ∨
          ((vy + n) % 32 = py ∧ rowCovers (byteAt (base + n)) vx 8 px) := by
      intro px py
      constructor
      · rintro ⟨r, hr, h⟩
        rcases Nat.lt_succ_iff_lt_or_eq.mp hr with hr | rfl
        · exact .inl ⟨r, hr, h⟩
        · exact .inr h
      · rintro (⟨r, hr, h⟩ | h)
        · exact ⟨r, by omega, h⟩
        · exact ⟨n, by omega, h⟩
    rw [hstep]
    constructor
    · intro px py hx hy
      rw [hr1 px py hx hy, ih1 px py hx hy, Bool.xor_assoc]
      congr 1
      by_cases hq : py = (vy + n) % 32
      · subst hq
        simp [hfresh, hcov]
      · have hq' : ¬ (vy + n) % 32 = py := fun h => hq h.symm
        simp [hq, hq', hcov]
    · rw [hr2, ih2]
      constructor
      · rintro (⟨px, py, hx, hy, h, hf⟩ | ⟨px, hx, h, hf⟩)
        · exact ⟨px, py, hx, hy, (hcov px py).mpr (.inl h), hf⟩
        · rw [ih1 px _ hx hpy, show decide (rowsCover byteAt base vx vy n px ((vy + n) % 32)) = false by
            simp [hfresh], Bool.xor_false] at hf
          exact ⟨px, _, hx, hpy, (hcov px _).mpr (.inr ⟨rfl, h⟩), hf⟩
      · rintro ⟨px, py, hx, hy, h, hf⟩
        rcases (hcov px py).mp h with hc | ⟨rfl, hc⟩
        · exact .inl ⟨px, py, hx, hy, hc, hf⟩
        · refine .inr ⟨px, hx, hc, ?_⟩
          rw [ih1 px _ hx hpy, show decide (rowsCover byteAt base vx vy n px ((vy + n) % 32)) = false by
            simp [hfresh], Bool.xor_false]
          exact hf

end Sys2Proof.Machine
end

