-- ==== Sys2Proof/Laws/Encoding.lean ====
section
/-! SUPPORT. What the field extractions read from the encoded formats of 30_encoding.md R83, and an opcode from its fields. -/

namespace Sys2Proof

/-- The bits of format A. -/
theorem getLsbD_formatA (b : Nibble) (nnn : Addr12) (i : Nat) :
    (formatA b nnn).getLsbD i = if i < 12 then nnn.getLsbD i else b.getLsbD (i - 12) :=
  BitVec.getLsbD_append

/-- The bits of formats I and X. -/
theorem getLsbD_formatI (b : Nibble) (x : Reg) (kk : Byte) (i : Nat) :
    (formatI b x kk).getLsbD i =
      if i < 8 then kk.getLsbD i else if i - 8 < 4 then x.getLsbD (i - 8) else b.getLsbD (i - 8 - 4) := by
  refine Eq.trans BitVec.getLsbD_append ?_
  rw [BitVec.getLsbD_append]

/-- The bits of formats R and D. -/
theorem getLsbD_formatR (b : Nibble) (x y : Reg) (n : Nibble) (i : Nat) :
    (formatR b x y n).getLsbD i =
      if i < 4 then n.getLsbD i else if i - 4 < 4 then y.getLsbD (i - 4)
      else if i - 4 - 4 < 4 then x.getLsbD (i - 4 - 4) else b.getLsbD (i - 4 - 4 - 4) := by
  refine Eq.trans BitVec.getLsbD_append ?_
  rw [BitVec.getLsbD_append, BitVec.getLsbD_append]

/-! ### Fields of the formats -/

@[simp] theorem fieldB0_formatA (b : Nibble) (nnn : Addr12) : fieldB0 (formatA b nnn) = b := by
  apply BitVec.eq_of_getLsbD_eq
  intro i hi
  interval_cases i <;> simp only [fieldB0, BitVec.getLsbD_extractLsb', getLsbD_formatA] <;> simp

@[simp] theorem fieldNNN_formatA (b : Nibble) (nnn : Addr12) : fieldNNN (formatA b nnn) = nnn := by
  apply BitVec.eq_of_getLsbD_eq
  intro i hi
  interval_cases i <;> simp only [fieldNNN, BitVec.getLsbD_extractLsb', getLsbD_formatA] <;> simp

@[simp] theorem fieldB0_formatI (b : Nibble) (x : Reg) (kk : Byte) : fieldB0 (formatI b x kk) = b := by
  apply BitVec.eq_of_getLsbD_eq
  intro i hi
  interval_cases i <;> simp only [fieldB0, BitVec.getLsbD_extractLsb', getLsbD_formatI] <;> simp

@[simp] theorem fieldX_formatI (b : Nibble) (x : Reg) (kk : Byte) : fieldX (formatI b x kk) = x := by
  apply BitVec.eq_of_getLsbD_eq
  intro i hi
  interval_cases i <;> simp only [fieldX, BitVec.getLsbD_extractLsb', getLsbD_formatI] <;> simp

@[simp] theorem fieldKK_formatI (b : Nibble) (x : Reg) (kk : Byte) : fieldKK (formatI b x kk) = kk := by
  apply BitVec.eq_of_getLsbD_eq
  intro i hi
  interval_cases i <;> simp only [fieldKK, BitVec.getLsbD_extractLsb', getLsbD_formatI] <;> simp

@[simp] theorem fieldB0_formatR (b : Nibble) (x y : Reg) (n : Nibble) : fieldB0 (formatR b x y n) = b := by
  apply BitVec.eq_of_getLsbD_eq
  intro i hi
  interval_cases i <;> simp only [fieldB0, BitVec.getLsbD_extractLsb', getLsbD_formatR] <;> simp

@[simp] theorem fieldX_formatR (b : Nibble) (x y : Reg) (n : Nibble) : fieldX (formatR b x y n) = x := by
  apply BitVec.eq_of_getLsbD_eq
  intro i hi
  interval_cases i <;> simp only [fieldX, BitVec.getLsbD_extractLsb', getLsbD_formatR] <;> simp

@[simp] theorem fieldY_formatR (b : Nibble) (x y : Reg) (n : Nibble) : fieldY (formatR b x y n) = y := by
  apply BitVec.eq_of_getLsbD_eq
  intro i hi
  interval_cases i <;> simp only [fieldY, BitVec.getLsbD_extractLsb', getLsbD_formatR] <;> simp

@[simp] theorem fieldN_formatR (b : Nibble) (x y : Reg) (n : Nibble) : fieldN (formatR b x y n) = n := by
  apply BitVec.eq_of_getLsbD_eq
  intro i hi
  interval_cases i <;> simp only [fieldN, BitVec.getLsbD_extractLsb', getLsbD_formatR] <;> simp

/-! ### An opcode from its fields -/

/-- An opcode is its b0 and nnn fields joined. -/
theorem formatA_fields (w : Word) : formatA (fieldB0 w) (fieldNNN w) = w := by
  apply BitVec.eq_of_getLsbD_eq
  intro i hi
  interval_cases i <;> simp only [fieldB0, fieldNNN, BitVec.getLsbD_extractLsb', getLsbD_formatA] <;> simp

/-- An opcode is its b0, x and kk fields joined. -/
theorem formatI_fields (w : Word) : formatI (fieldB0 w) (fieldX w) (fieldKK w) = w := by
  apply BitVec.eq_of_getLsbD_eq
  intro i hi
  interval_cases i <;> simp only [fieldB0, fieldX, fieldKK, BitVec.getLsbD_extractLsb', getLsbD_formatI] <;> simp

/-- An opcode is its b0, x, y and n fields joined. -/
theorem formatR_fields (w : Word) : formatR (fieldB0 w) (fieldX w) (fieldY w) (fieldN w) = w := by
  apply BitVec.eq_of_getLsbD_eq
  intro i hi
  interval_cases i <;> simp only [fieldB0, fieldX, fieldY, fieldN, BitVec.getLsbD_extractLsb', getLsbD_formatR] <;> simp

/-- The bits of an opcode read from memory. -/
theorem getLsbD_opcodeOf (hi lo : Byte) (i : Nat) :
    (opcodeOf hi lo).getLsbD i = if i < 8 then lo.getLsbD i else hi.getLsbD (i - 8) :=
  BitVec.getLsbD_append

/-- The value of an opcode read from memory: the byte at the lower address is the upper half (20_memory.md R52). -/
theorem opcodeOf_toNat (hi lo : Byte) : (opcodeOf hi lo).toNat = hi.toNat * 256 + lo.toNat := by
  have h : (opcodeOf hi lo).toNat = hi.toNat <<< 8 ||| lo.toNat := BitVec.toNat_append ..
  rw [h, Nat.shiftLeft_eq, Nat.mul_comm, ← Nat.two_pow_add_eq_or_of_lt lo.isLt, Nat.mul_comm]

/-- The two bytes of an opcode read back as it. -/
@[simp] theorem opcodeOf_bytes (w : Word) : opcodeOf (w.extractLsb' 8 8) (w.extractLsb' 0 8) = w := by
  apply BitVec.eq_of_getLsbD_eq
  intro i hi
  interval_cases i <;> simp only [getLsbD_opcodeOf, BitVec.getLsbD_extractLsb'] <;> simp

end Sys2Proof
end

