-- ==== Sys2Proof/Laws/Faults.lean ====
section
/-! SUPPORT. The address checks of the memory instructions in the terms of the claims: Readable and Storable. -/

namespace Sys2Proof.Machine

/-- A range read passes its checks exactly when the range is readable. -/
theorem firstFault_read_eq_none (base n : Nat) : firstFault readFault base n = none ↔ Readable base n := by
  rw [firstFault_read]
  split
  · rename_i h
    exact ⟨fun _ => h, fun _ => rfl⟩
  · rename_i h
    exact ⟨fun h1 => (by cases h1), fun h1 => absurd h1 h⟩

/-- The fault of a range read that is not readable: the lowest address above 0xFFF. -/
theorem firstFault_read_of_not {base n : Nat} (h : ¬ Readable base n) :
    firstFault readFault base n = some (.dataOutOfRange (max base 0x1000)) := by
  rw [firstFault_read, if_neg h]

/-- A range store passes its checks exactly when the range is storable. -/
theorem firstFault_write_eq_none (s : State) (base n : Nat) (hn : 0 < n) :
    firstFault (writeFault s.params.lowWrite) base n = none ↔ Storable s base n := by
  rw [firstFault_write _ _ _ hn]
  split
  · rename_i h
    exact ⟨fun h1 => (by cases h1), fun h1 => absurd (h1.2 h.2) (by omega)⟩
  · rename_i h
    rw [firstFault_read_eq_none]
    exact ⟨fun h1 => ⟨by omega, fun h2 => by_contra fun h3 => h ⟨by omega, h2⟩⟩, fun h1 => .inr h1.1⟩

/-- The fault of a range store that is not storable: its base below 0x200 under LOW_WRITE_POLICY = fault, else the lowest address above 0xFFF. -/
theorem firstFault_write_of_not {s : State} {base n : Nat} (hn : 0 < n) (h : ¬ Storable s base n) :
    firstFault (writeFault s.params.lowWrite) base n =
      some (if base < 0x200 ∧ s.params.lowWrite = .fault then .writeBelowOrigin base
        else .dataOutOfRange (max base 0x1000)) := by
  have h0 := firstFault_write_eq_none s base n hn
  rw [firstFault_write _ _ _ hn] at h0 ⊢
  split
  · rfl
  · rename_i hb
    rw [if_neg hb, firstFault_read_eq_none] at h0
    exact firstFault_read_of_not fun h1 => h (h0.mp h1)

end Sys2Proof.Machine
end

