-- ==== Sys2Proof/Laws/PerInstr.lean ====
section
/-! SUPPORT. The per-instruction family FixedBits: the opcode of every instruction carries the fixed bits of its own row of the opcode map
(30_encoding.md R86). -/

namespace Sys2Proof.Laws.FixedBits

/-- The mnemonic of an instruction's row in spec/opcode_table.json. -/
def mnemonicOf : Instr → String
  | .cls => "CLS"
  | .ret => "RET"
  | .sys _ => "SYS"
  | .jmp _ => "JMP"
  | .call _ => "CALL"
  | .seImm _ _ => "SE_Vx_kk"
  | .sneImm _ _ => "SNE_Vx_kk"
  | .seReg _ _ => "SE_Vx_Vy"
  | .ldImm _ _ => "LD_Vx_kk"
  | .addImm _ _ => "ADD_Vx_kk"
  | .ldReg _ _ => "LD_Vx_Vy"
  | .or _ _ => "OR_Vx_Vy"
  | .and _ _ => "AND_Vx_Vy"
  | .xor _ _ => "XOR_Vx_Vy"
  | .addReg _ _ => "ADD_Vx_Vy"
  | .sub _ _ => "SUB_Vx_Vy"
  | .shr _ _ => "SHR_Vx"
  | .subn _ _ => "SUBN_Vx_Vy"
  | .shl _ _ => "SHL_Vx"
  | .sneReg _ _ => "SNE_Vx_Vy"
  | .ldI _ => "LD_I_nnn"
  | .jpV0 _ => "JP_V0_nnn"
  | .rnd _ _ => "RND_Vx_kk"
  | .drw _ _ _ => "DRW_Vx_Vy_n"
  | .skp _ => "SKP_Vx"
  | .sknp _ => "SKNP_Vx"
  | .ldVxDT _ => "LD_Vx_DT"
  | .ldVxK _ => "LD_Vx_K"
  | .ldDTVx _ => "LD_DT_Vx"
  | .ldSTVx _ => "LD_ST_Vx"
  | .addI _ => "ADD_I_Vx"
  | .ldF _ => "LD_F_Vx"
  | .ldB _ => "LD_B_Vx"
  | .storeRegs _ => "LD__I__Vx"
  | .loadRegs _ => "LD_Vx__I"
  | .undef _ => "UNDEF"

/-- The opcode of i has the mask and pattern of i's own row. -/
def Statement (i : Instr) : Prop :=
  ∃ r ∈ opcodeTable, r.mnemonic = mnemonicOf i ∧ encode i &&& r.mask = r.pattern

/-- Format A: the mask 0xF000 keeps the opcode nibble. -/
theorem maskA (b : Nibble) (nnn : Addr12) : formatA b nnn &&& 0xF000#16 = formatA b 0 := by
  apply BitVec.eq_of_getLsbD_eq
  intro i hi
  interval_cases i <;> simp only [BitVec.getLsbD_and, getLsbD_formatA] <;> simp

/-- Format I: the mask 0xF000 keeps the opcode nibble. -/
theorem maskI (b : Nibble) (x : Reg) (kk : Byte) : formatI b x kk &&& 0xF000#16 = formatI b 0 0 := by
  apply BitVec.eq_of_getLsbD_eq
  intro i hi
  interval_cases i <;> simp only [BitVec.getLsbD_and, getLsbD_formatI] <;> simp

/-- Format X: the mask 0xF0FF keeps the opcode nibble and the function byte. -/
theorem maskX (b : Nibble) (x : Reg) (kk : Byte) : formatI b x kk &&& 0xF0FF#16 = formatI b 0 kk := by
  apply BitVec.eq_of_getLsbD_eq
  intro i hi
  interval_cases i <;> simp only [BitVec.getLsbD_and, getLsbD_formatI] <;> simp

/-- Format R: the mask 0xF00F keeps the opcode and function nibbles. -/
theorem maskR (b : Nibble) (x y : Reg) (n : Nibble) : formatR b x y n &&& 0xF00F#16 = formatR b 0 0 n := by
  apply BitVec.eq_of_getLsbD_eq
  intro i hi
  interval_cases i <;> simp only [BitVec.getLsbD_and, getLsbD_formatR] <;> simp

/-- Format D: the mask 0xF000 keeps the opcode nibble. -/
theorem maskD (b : Nibble) (x y : Reg) (n : Nibble) : formatR b x y n &&& 0xF000#16 = formatR b 0 0 0 := by
  apply BitVec.eq_of_getLsbD_eq
  intro i hi
  interval_cases i <;> simp only [BitVec.getLsbD_and, getLsbD_formatR] <;> simp

theorem cls : Statement .cls :=
  ⟨opcodeTable[0], List.getElem_mem _, rfl, rfl⟩

theorem ret : Statement .ret :=
  ⟨opcodeTable[1], List.getElem_mem _, rfl, rfl⟩

theorem sys (nnn : Addr12) : Statement (.sys nnn) :=
  ⟨opcodeTable[2], List.getElem_mem _, rfl, (maskA ..).trans rfl⟩

theorem jmp (nnn : Addr12) : Statement (.jmp nnn) :=
  ⟨opcodeTable[3], List.getElem_mem _, rfl, (maskA ..).trans rfl⟩

theorem call (nnn : Addr12) : Statement (.call nnn) :=
  ⟨opcodeTable[4], List.getElem_mem _, rfl, (maskA ..).trans rfl⟩

theorem seImm (x : Reg) (kk : Byte) : Statement (.seImm x kk) :=
  ⟨opcodeTable[5], List.getElem_mem _, rfl, (maskI ..).trans rfl⟩

theorem sneImm (x : Reg) (kk : Byte) : Statement (.sneImm x kk) :=
  ⟨opcodeTable[6], List.getElem_mem _, rfl, (maskI ..).trans rfl⟩

theorem seReg (x y : Reg) : Statement (.seReg x y) :=
  ⟨opcodeTable[7], List.getElem_mem _, rfl, (maskR ..).trans rfl⟩

theorem ldImm (x : Reg) (kk : Byte) : Statement (.ldImm x kk) :=
  ⟨opcodeTable[8], List.getElem_mem _, rfl, (maskI ..).trans rfl⟩

theorem addImm (x : Reg) (kk : Byte) : Statement (.addImm x kk) :=
  ⟨opcodeTable[9], List.getElem_mem _, rfl, (maskI ..).trans rfl⟩

theorem ldReg (x y : Reg) : Statement (.ldReg x y) :=
  ⟨opcodeTable[10], List.getElem_mem _, rfl, (maskR ..).trans rfl⟩

theorem or (x y : Reg) : Statement (.or x y) :=
  ⟨opcodeTable[11], List.getElem_mem _, rfl, (maskR ..).trans rfl⟩

theorem and (x y : Reg) : Statement (.and x y) :=
  ⟨opcodeTable[12], List.getElem_mem _, rfl, (maskR ..).trans rfl⟩

theorem xor (x y : Reg) : Statement (.xor x y) :=
  ⟨opcodeTable[13], List.getElem_mem _, rfl, (maskR ..).trans rfl⟩

theorem addReg (x y : Reg) : Statement (.addReg x y) :=
  ⟨opcodeTable[14], List.getElem_mem _, rfl, (maskR ..).trans rfl⟩

theorem sub (x y : Reg) : Statement (.sub x y) :=
  ⟨opcodeTable[15], List.getElem_mem _, rfl, (maskR ..).trans rfl⟩

theorem shr (x y : Reg) : Statement (.shr x y) :=
  ⟨opcodeTable[16], List.getElem_mem _, rfl, (maskR ..).trans rfl⟩

theorem subn (x y : Reg) : Statement (.subn x y) :=
  ⟨opcodeTable[17], List.getElem_mem _, rfl, (maskR ..).trans rfl⟩

theorem shl (x y : Reg) : Statement (.shl x y) :=
  ⟨opcodeTable[18], List.getElem_mem _, rfl, (maskR ..).trans rfl⟩

theorem sneReg (x y : Reg) : Statement (.sneReg x y) :=
  ⟨opcodeTable[19], List.getElem_mem _, rfl, (maskR ..).trans rfl⟩

theorem ldI (nnn : Addr12) : Statement (.ldI nnn) :=
  ⟨opcodeTable[20], List.getElem_mem _, rfl, (maskA ..).trans rfl⟩

theorem jpV0 (nnn : Addr12) : Statement (.jpV0 nnn) :=
  ⟨opcodeTable[21], List.getElem_mem _, rfl, (maskA ..).trans rfl⟩

theorem rnd (x : Reg) (kk : Byte) : Statement (.rnd x kk) :=
  ⟨opcodeTable[22], List.getElem_mem _, rfl, (maskI ..).trans rfl⟩

theorem drw (x y : Reg) (n : Nibble) : Statement (.drw x y n) :=
  ⟨opcodeTable[23], List.getElem_mem _, rfl, (maskD ..).trans rfl⟩

theorem skp (x : Reg) : Statement (.skp x) :=
  ⟨opcodeTable[24], List.getElem_mem _, rfl, (maskX ..).trans rfl⟩

theorem sknp (x : Reg) : Statement (.sknp x) :=
  ⟨opcodeTable[25], List.getElem_mem _, rfl, (maskX ..).trans rfl⟩

theorem ldVxDT (x : Reg) : Statement (.ldVxDT x) :=
  ⟨opcodeTable[26], List.getElem_mem _, rfl, (maskX ..).trans rfl⟩

theorem ldVxK (x : Reg) : Statement (.ldVxK x) :=
  ⟨opcodeTable[27], List.getElem_mem _, rfl, (maskX ..).trans rfl⟩

theorem ldDTVx (x : Reg) : Statement (.ldDTVx x) :=
  ⟨opcodeTable[28], List.getElem_mem _, rfl, (maskX ..).trans rfl⟩

theorem ldSTVx (x : Reg) : Statement (.ldSTVx x) :=
  ⟨opcodeTable[29], List.getElem_mem _, rfl, (maskX ..).trans rfl⟩

theorem addI (x : Reg) : Statement (.addI x) :=
  ⟨opcodeTable[30], List.getElem_mem _, rfl, (maskX ..).trans rfl⟩

theorem ldF (x : Reg) : Statement (.ldF x) :=
  ⟨opcodeTable[31], List.getElem_mem _, rfl, (maskX ..).trans rfl⟩

theorem ldB (x : Reg) : Statement (.ldB x) :=
  ⟨opcodeTable[32], List.getElem_mem _, rfl, (maskX ..).trans rfl⟩

theorem storeRegs (x : Reg) : Statement (.storeRegs x) :=
  ⟨opcodeTable[33], List.getElem_mem _, rfl, (maskX ..).trans rfl⟩

theorem loadRegs (x : Reg) : Statement (.loadRegs x) :=
  ⟨opcodeTable[34], List.getElem_mem _, rfl, (maskX ..).trans rfl⟩

theorem undef (opcode : Word) : Statement (.undef opcode) :=
  ⟨opcodeTable[35], List.getElem_mem _, rfl, BitVec.and_zero⟩

end Sys2Proof.Laws.FixedBits
end

