-- ==== Sys2Proof/Laws/Step.lean ====
section
/-! SUPPORT. What a step delivers: the first event of the list, or an instruction tick. -/

namespace Sys2Proof.Machine

/-- A step with an event listed first delivers it, the list moved on. -/
theorem step_of_event {s : State} {e : Event} {rest : List Event} (h : s.inputs = e :: rest) :
    step s = deliver e { s with inputs := rest } := by
  simp only [step, nextEvent, h]

/-- A step whose next event is an instruction tick, by default or listed first, is that tick, the list moved on. -/
theorem step_of_tick {s : State} (h : s.inputs = [] ∨ s.inputs.head? = some .iclk) :
    step s = instrTick { s with inputs := s.inputs.tail } := by
  cases hi : s.inputs with
  | nil =>
    have : ({ s with inputs := [] } : State) = s := by rw [← hi]
    simp only [step, nextEvent, hi, List.tail_nil, this]
  | cons e rest =>
    rw [hi] at h
    simp only [List.head?_cons, Option.some.injEq, reduceCtorEq, false_or] at h
    rw [step_of_event hi, h]
    rfl

/-- An instruction tick takes no step unless the machine is Running with no fault latched (60_exceptions.md R231, 70_reset_and_hazards.md R260). -/
theorem instrTick_of_not_ticking {s : State} (h : s.ticking = false) : instrTick s = .next s := by
  simp [instrTick, h]

/-- An instruction tick that takes a step executes what the fetch gives, or latches the fetch fault. -/
theorem instrTick_of_ticking {s : State} (h : s.ticking = true) :
    instrTick s =
      match s.fetch with
      | none => raise .fetchOutOfRange none s
      | some w => exec (decodeOpcode w) s := by
  unfold instrTick
  exact if_pos h

/-- The fetch does not depend on the events to come. -/
@[simp] theorem State.fetch_inputs (s : State) (l : List Event) : ({ s with inputs := l } : State).fetch = s.fetch := rfl

/-- Whether instruction ticks take steps does not depend on the events to come. -/
@[simp] theorem State.ticking_inputs (s : State) (l : List Event) :
    ({ s with inputs := l } : State).ticking = s.ticking := rfl

theorem State.ticking_eq_true (s : State) : s.ticking = true ↔ s.runState = .running ∧ s.fault = none := by
  simp [State.ticking]

/-- A step with an instruction tick next, while Running with no fault latched: the fetched opcode executed, or the fetch fault. -/
theorem step_of_running_tick {s : State} (hi : s.inputs = [] ∨ s.inputs.head? = some .iclk)
    (hr : s.runState = .running) (hf : s.fault = none) :
    step s =
      match s.fetch with
      | none => raise .fetchOutOfRange none { s with inputs := s.inputs.tail }
      | some w => exec (decodeOpcode w) { s with inputs := s.inputs.tail } := by
  rw [step_of_tick hi]
  exact instrTick_of_ticking ((State.ticking_eq_true _).mpr ⟨hr, hf⟩)

/-- A step with an instruction tick next, while not Running or with a fault latched: the list moved on and nothing else. -/
theorem step_of_idle_tick {s : State} (hi : s.inputs = [] ∨ s.inputs.head? = some .iclk)
    (h : s.ticking = false) : step s = .next { s with inputs := s.inputs.tail } := by
  rw [step_of_tick hi]
  exact instrTick_of_not_ticking h

end Sys2Proof.Machine
end

