-- ==== Sys2Proof/Tests/Slice0.lean ====
section
/-! SUPPORT. The model's own tests: well-formedness, decoding of words written out bit by bit, one step per test with the expected values of
spec/95_test_vectors.md (the row is named as its rule), and a witness for the hypotheses of every obligation that has some. -/

namespace Sys2Proof.Tests

open Sys2Proof Sys2Proof.Machine

/-! ### Helpers -/

/-- A state with registers set. -/
def withRegs (regs : List (Reg × Byte)) (s : State) : State := regs.foldl (fun t p => t.setV p.1 p.2) s

/-- The reset state with registers set and an opcode where the next step fetches it. -/
def ready (w : Nat) (regs : List (Reg × Byte)) : State := withRegs regs (State.reset.withFetchWord 16 w)

/-- A look at the state a step answers. -/
def seen {α : Type} (r : Result) (look : State → α) : Option α :=
  match r with
  | .next t => some (look t)
  | .fault _ => none
  | .refused _ => none

/-- The bytes at the given addresses. -/
def bytesAt (t : State) (l : List Nat) : List Byte := l.map t.readByte

/-- The cells that are 1. -/
def lit (f : Frame) : List Nat := (List.range 2048).filter f.getLsbD

/-- A frame with the given cells 1. -/
def cells (l : List Nat) : Frame := l.foldl (fun f k => f ||| (1#2048 <<< k)) 0

/-- A running state with I set and nothing else. -/
def atIndex (a : Word) : State := { State.reset with index := a, runState := .running }

/-- The reset state, Running, with one event next. -/
def runningWith (e : Event) : State := { State.reset with runState := .running, inputs := [e] }

/-- The parameters with another shift source and shift flag. -/
def quirks (src : ShiftSource) (f : ShlFlag) : Params :=
  { Params.default with shiftSource := src, shlFlag := f }

/-! ### Well-formedness: an ill-formed term for each check -/

/-- 0x00E0 and 0x00EE are CLS and RET, no SYS (30_encoding.md R88). -/
theorem test_wellFormed_refuses_sys :
    wellFormed (.sys 0x0E0) = false ∧ wellFormed (.sys 0x0EE) = false ∧ wellFormed (.sys 0x1E0) = true := by decide

/-- UNDEF carries only an opcode of the list of R87. -/
theorem test_wellFormed_refuses_undef :
    wellFormed (.undef 0x8124) = false ∧ wellFormed (.undef 0xF107) = false ∧ wellFormed (.undef 0x0000) = false ∧
    wellFormed (.undef 0x5120) = false ∧ wellFormed (.undef 0x9120) = false ∧ wellFormed (.undef 0xE19E) = false ∧
    wellFormed (.undef 0x5121) = true ∧ wellFormed (.undef 0x912F) = true ∧ wellFormed (.undef 0x8128) = true ∧
    wellFormed (.undef 0xE19F) = true ∧ wellFormed (.undef 0xF166) = true := by decide

/-! ### Decoding: a word for every constructor, from the bit patterns of 30_encoding.md R83 and R86 -/

theorem test_decode_control :
    decodeOpcode 0b0000000011100000 = .cls ∧ decodeOpcode 0b0000000011101110 = .ret ∧
    decodeOpcode 0b0000000111100000 = .sys 0x1E0 ∧ decodeOpcode 0b0001101010111100 = .jmp 0xABC ∧
    decodeOpcode 0b0010001100000001 = .call 0x301 ∧ decodeOpcode 0b0011101000000101 = .seImm 0xA 0x05 ∧
    decodeOpcode 0b0100101110000110 = .sneImm 0xB 0x86 ∧ decodeOpcode 0b0101000100100000 = .seReg 1 2 ∧
    decodeOpcode 0b1001001101000000 = .sneReg 3 4 ∧ decodeOpcode 0b1011111100000001 = .jpV0 0xF01 := by decide

theorem test_decode_alu :
    decodeOpcode 0b0110111110101011 = .ldImm 0xF 0xAB ∧ decodeOpcode 0b0111000011111110 = .addImm 0 0xFE ∧
    decodeOpcode 0b1000000100100000 = .ldReg 1 2 ∧ decodeOpcode 0b1000000100100001 = .or 1 2 ∧
    decodeOpcode 0b1000000100100010 = .and 1 2 ∧ decodeOpcode 0b1000000100100011 = .xor 1 2 ∧
    decodeOpcode 0b1000000100100100 = .addReg 1 2 ∧ decodeOpcode 0b1000000100100101 = .sub 1 2 ∧
    decodeOpcode 0b1000000100100110 = .shr 1 2 ∧ decodeOpcode 0b1000000100100111 = .subn 1 2 ∧
    decodeOpcode 0b1000000100101110 = .shl 1 2 ∧ decodeOpcode 0b1100000111111111 = .rnd 1 0xFF := by decide

theorem test_decode_memory_display_keys :
    decodeOpcode 0b1010001011110000 = .ldI 0x2F0 ∧ decodeOpcode 0b1111001100011110 = .addI 3 ∧
    decodeOpcode 0b1111010000101001 = .ldF 4 ∧ decodeOpcode 0b1111010100110011 = .ldB 5 ∧
    decodeOpcode 0b1111011001010101 = .storeRegs 6 ∧ decodeOpcode 0b1111000101100101 = .loadRegs 1 ∧
    decodeOpcode 0b1101000100101111 = .drw 1 2 15 ∧ decodeOpcode 0b1110000110011110 = .skp 1 ∧
    decodeOpcode 0b1110001010100001 = .sknp 2 ∧ decodeOpcode 0b1111000100000111 = .ldVxDT 1 ∧
    decodeOpcode 0b1111001100001010 = .ldVxK 3 ∧ decodeOpcode 0b1111110000010101 = .ldDTVx 0xC ∧
    decodeOpcode 0b1111110100011000 = .ldSTVx 0xD := by decide

/-- The UNDEF neighbours of the decode vectors of 95_test_vectors.md. -/
theorem test_decode_undef :
    decodeOpcode 0x5121 = .undef 0x5121 ∧ decodeOpcode 0x912F = .undef 0x912F ∧ decodeOpcode 0x8128 = .undef 0x8128 ∧
    decodeOpcode 0x812F = .undef 0x812F ∧ decodeOpcode 0xE19F = .undef 0xE19F ∧
    decodeOpcode 0xF100 = .undef 0xF100 ∧ decodeOpcode 0xF1FF = .undef 0xF1FF ∧
    decodeOpcode 0xF166 = .undef 0xF166 := by decide

/-- The SYS rows of the decode vectors. -/
theorem test_decode_sys :
    decodeOpcode 0x0000 = .sys 0x000 ∧ decodeOpcode 0x00E1 = .sys 0x0E1 ∧ decodeOpcode 0x0FFF = .sys 0xFFF := by decide

/-- A list of one byte holds no instruction; of three bytes the third is left over (30_encoding.md R80). -/
theorem test_decode_bytes :
    (match decode [0x12] with | .error .truncated => true | .ok _ => false) = true ∧
    (match decode [0xA2, 0xF0, 0x77] with | .ok p => some p | .error _ => none) = some (.ldI 0x2F0, [0x77]) := by
  decide

/-- The encoder writes the same words. -/
theorem test_encode_words :
    encode (.ldI 0x2F0) = 0b1010001011110000 ∧ encode (.drw 1 2 15) = 0b1101000100101111 ∧
    encode (.sneImm 0xB 0x86) = 0b0100101110000110 ∧ encode (.shl 1 2) = 0b1000000100101110 ∧
    encodeBytes (.jmp 0xABC) = [0x1A, 0xBC] ∧ decodeTableWord 16 0x8F1E = some (.shl 0xF 1) := by decide

/-! ### Reset and the listing -/

/-- The font occupies 0x000 to 0x04F; its neighbours read 0 (10_state.md R37, 93_implementation_defined.md G1). -/
theorem test_reset_memory : bytesAt State.reset [0, 1, 78, 79, 80, 0xFFF] = [0xF0, 0x90, 0x80, 0x80, 0, 0] := by decide

/-- A DW row and an ordinary row of the listing (30_encoding.md R92, R93). -/
theorem test_listing_text :
    assembly (.drw 1 2 15) = "DRW V1, V2, 15" ∧ assembly (.ldImm 0 0xEA) = "LD V0, 0xEA" ∧
    assembly (.undef 0xF1FF) = "DW 0xF1FF" ∧ (disassemble State.reset 0xFFE 30).length = 1 := by decide

/-! ### Control flow (expected: 95_test_vectors.md, Control flow) -/

theorem test_ret_goes_past_the_call :
    seen (step { ready 0x00EE [] with stack := [0x250, 0x200] }) (fun t => (t.sp, t.pc, t.fault)) =
      some (1, 0x252, none) := by decide

theorem test_ret_underflows :
    seen (step (ready 0x00EE [])) (fun t => (t.pc, t.fault)) =
      some (0x200, some ⟨.stackUnderflow, 0x200, some 0x00EE⟩) := by decide

theorem test_sys_spins : seen (step (ready 0x0123 [])) (fun t => (t.pc, t.fault)) = some (0x200, none) := by decide

theorem test_jmp_odd : seen (step (ready 0x1201 [])) (fun t => t.pc) = some 0x201 := by decide

theorem test_call_sixteenth :
    seen (step { ready 0x2300 [] with stack := List.replicate 15 0x222 })
      (fun t => (t.stackEntry 15, t.sp, t.pc)) = some (some 0x200, 16, 0x300) := by decide

theorem test_call_overflows :
    seen (step { ready 0x2300 [] with stack := List.replicate 16 0x222 }) (fun t => (t.sp, t.pc, t.fault)) =
      some (16, 0x200, some ⟨.stackOverflow, 0x200, some 0x2300⟩) := by decide

theorem test_se_imm :
    seen (step (ready 0x3A05 [(0xA, 5)])) (fun t => t.pc) = some 0x204 ∧
    seen (step (ready 0x3A05 [(0xA, 6)])) (fun t => t.pc) = some 0x202 := by decide

theorem test_se_imm_at_the_top :
    seen (step (withRegs [(0xA, 5)] (State.withFetchWord { State.reset with pc := 0xFFE } 16 0x3A05)))
      (fun t => t.pc) = some 0x1002 := by decide

theorem test_sne_imm : seen (step (ready 0x4A05 [(0xA, 5)])) (fun t => t.pc) = some 0x202 := by decide

theorem test_se_reg_same : seen (step (ready 0x5AA0 [(0xA, 9)])) (fun t => t.pc) = some 0x204 := by decide

theorem test_sne_reg :
    seen (step (ready 0x9120 [(1, 9), (2, 8)])) (fun t => t.pc) = some 0x204 ∧
    seen (step (ready 0x9AA0 [(0xA, 9)])) (fun t => t.pc) = some 0x202 := by decide

theorem test_jp_v0 :
    seen (step (ready 0xB300 [(0, 0x08), (3, 0x40)])) (fun t => t.pc) = some 0x308 ∧
    seen (step (ready 0xBFFF [(0, 0xFF)])) (fun t => t.pc) = some 0x10FE := by decide

theorem test_undef_advances :
    seen (step (ready 0x8AB9 [(0xA, 1)])) (fun t => (t.pc, t.getV 0xA, t.fault)) = some (0x202, 1, none) := by decide

/-- 95_test_vectors.md, P7: the fetch above 0xFFE faults with no opcode. -/
theorem test_fetch_fault :
    seen (step { State.reset with pc := 0x1000, runState := .running }) (fun t => (t.pc, t.fault)) =
      some (0x1000, some ⟨.fetchOutOfRange, 0x1000, none⟩) := by decide

/-! ### Arithmetic and logic (expected: 95_test_vectors.md, T1, T2, ALU) -/

theorem test_ld_imm : seen (step (ready 0x6FAB [])) (fun t => (t.getV 0xF, t.pc)) = some (0xAB, 0x202) := by decide

theorem test_add_imm_no_flag :
    seen (step (ready 0x7001 [(0, 0xFF), (0xF, 0)])) (fun t => (t.getV 0, t.getV 0xF)) = some (0, 0) := by decide

theorem test_ld_reg : seen (step (ready 0x8120 [(2, 0x7E)])) (fun t => (t.getV 1, t.getV 2)) = some (0x7E, 0x7E) := by
  decide

theorem test_or_keeps_flag :
    seen (step (ready 0x8121 [(1, 0xF0), (2, 0x3C), (0xF, 1)])) (fun t => (t.getV 1, t.getV 0xF)) = some (0xFC, 1) := by
  decide

theorem test_and : seen (step (ready 0x8122 [(1, 0xF0), (2, 0x3C)])) (fun t => t.getV 1) = some 0x30 := by decide

theorem test_xor :
    seen (step (ready 0x8123 [(1, 0xF0), (2, 0x3C)])) (fun t => t.getV 1) = some 0xCC ∧
    seen (step (ready 0x8113 [(1, 0x5A)])) (fun t => t.getV 1) = some 0 := by decide

theorem test_add_reg_carry :
    seen (step (ready 0x8124 [(1, 0xFF), (2, 0x01)])) (fun t => (t.getV 1, t.getV 0xF, t.pc)) = some (0, 1, 0x202) ∧
    seen (step (ready 0x8124 [(1, 0x7F), (2, 0x80)])) (fun t => (t.getV 1, t.getV 0xF)) = some (0xFF, 0) := by decide

theorem test_add_reg_flag_operand :
    seen (step (ready 0x81F4 [(1, 0xFF), (0xF, 1)])) (fun t => (t.getV 1, t.getV 0xF)) = some (0, 1) ∧
    seen (step (ready 0x8F14 [(0xF, 0xF0), (1, 0x20)])) (fun t => t.getV 0xF) = some 0x10 := by decide

theorem test_sub_borrow :
    seen (step (ready 0x8125 [(1, 3), (2, 5)])) (fun t => (t.getV 1, t.getV 0xF)) = some (0xFE, 0) ∧
    seen (step (ready 0x8125 [(1, 7), (2, 7)])) (fun t => (t.getV 1, t.getV 0xF)) = some (0, 1) := by decide

theorem test_sub_flag_destination :
    seen (step (ready 0x8F15 [(0xF, 5), (1, 7)])) (fun t => t.getV 0xF) = some 0xFE := by decide

theorem test_subn :
    seen (step (ready 0x8127 [(1, 3), (2, 5)])) (fun t => (t.getV 1, t.getV 0xF)) = some (2, 1) ∧
    seen (step (ready 0x8127 [(1, 5), (2, 3)])) (fun t => (t.getV 1, t.getV 0xF)) = some (0xFE, 0) := by decide

theorem test_subn_flag_destination :
    seen (step (ready 0x8F17 [(0xF, 5), (1, 7)])) (fun t => t.getV 0xF) = some 0x02 := by decide

theorem test_shr_ignores_vy :
    seen (step (ready 0x81A6 [(1, 0x03), (0xA, 0x80)])) (fun t => (t.getV 1, t.getV 0xF, t.getV 0xA)) =
      some (0x01, 1, 0x80) ∧
    seen (step (ready 0x8F16 [(0xF, 0xFF)])) (fun t => t.getV 0xF) = some 0 := by decide

theorem test_shr_reads_vy :
    seen (step { ready 0x8126 [(1, 0xFF), (2, 0x05)] with params := quirks .vy .lsb })
      (fun t => (t.getV 1, t.getV 0xF, t.getV 2)) = some (0x02, 1, 0x05) := by decide

theorem test_shl_flag_bit :
    seen (step (ready 0x810E [(1, 0x80)])) (fun t => (t.getV 1, t.getV 0xF)) = some (0, 0) ∧
    seen (step { ready 0x810E [(1, 0x80)] with params := quirks .vx .msb }) (fun t => (t.getV 1, t.getV 0xF)) =
      some (0, 1) := by decide

theorem test_shl_flag_destination :
    seen (step (ready 0x8F1E [(0xF, 0xFF)])) (fun t => t.getV 0xF) = some 0x02 ∧
    seen (step (ready 0x8F1E [(0xF, 0xFE)])) (fun t => t.getV 0xF) = some 0x00 := by decide

/-- The mask 0 leaves 0 for any draw; what the draw is stays open. -/
theorem test_rnd_mask_zero : seen (step (ready 0xC300 [(3, 9)])) (fun t => t.getV 3) = some 0 := by
  show some (Config.randomByte 0 &&& 0) = some 0
  simp

/-! ### Index and memory (expected: 95_test_vectors.md, Index and memory) -/

theorem test_ld_i : seen (step (ready 0xAFFF [])) (fun t => (t.index, t.pc)) = some (0x0FFF, 0x202) := by decide

theorem test_add_i :
    seen (step { ready 0xF31E [(3, 0xFF)] with index := 0x0FFF }) (fun t => (t.index, t.getV 0xF)) =
      some (0x10FE, 0) ∧
    seen (step { ready 0xF31E [(3, 0x01)] with index := 0xFFFF }) (fun t => t.index) = some 0 := by decide

theorem test_ld_f_whole_register :
    seen (step (ready 0xF029 [(0, 0x0A)])) (fun t => t.index) = some 0x032 ∧
    seen (step (ready 0xF029 [(0, 0xFF)])) (fun t => t.index) = some 0x4FB := by decide

theorem test_ld_b :
    seen (step { ready 0xF033 [(0, 234)] with index := 0x300 })
      (fun t => (bytesAt t [0x2FF, 0x300, 0x301, 0x302, 0x303], t.index)) = some ([0, 2, 3, 4, 0], 0x300) := by decide

theorem test_ld_b_faults_before_writing :
    seen (step { ready 0xF033 [(0, 234)] with index := 0xFFE }) (fun t => (bytesAt t [0xFFE, 0xFFF], t.fault)) =
      some ([0, 0], some ⟨.dataOutOfRange 0x1000, 0x200, some 0xF033⟩) ∧
    seen (step { ready 0xF033 [(0, 234)] with index := 0x1FE }) (fun t => (bytesAt t [0x1FE, 0x200], t.fault)) =
      some ([0, 0xF0], some ⟨.writeBelowOrigin 0x1FE, 0x200, some 0xF033⟩) := by decide

theorem test_store_regs_to_the_top :
    seen (step { ready 0xF155 [(0, 1), (1, 2)] with index := 0xFFE })
      (fun t => (bytesAt t [0xFFE, 0xFFF], t.index)) = some ([1, 2], 0x1000) := by decide

theorem test_store_regs_low :
    seen (step { ready 0xF155 [(0, 1), (1, 2)] with index := 0x1FF }) (fun t => (bytesAt t [0x1FF, 0x200], t.fault)) =
      some ([0, 0xF1], some ⟨.writeBelowOrigin 0x1FF, 0x200, some 0xF155⟩) ∧
    seen (step { ready 0xF155 [(0, 1), (1, 2)] with
        index := 0x1FF, params := { Params.default with lowWrite := .allow } })
      (fun t => (bytesAt t [0x1FF, 0x200], t.index)) = some ([1, 2], 0x201) := by decide

theorem test_load_regs_font :
    seen (step (ready 0xF465 [(5, 0x77)]))
      (fun t => (t.getV 0, t.getV 1, t.getV 4, t.getV 5, t.index)) = some (0xF0, 0x90, 0xF0, 0x77, 0x005) := by decide

theorem test_load_regs_faults_before_loading :
    seen (step { ready 0xF165 [(0, 7)] with index := 0xFFF }) (fun t => (t.getV 0, t.fault)) =
      some (7, some ⟨.dataOutOfRange 0x1000, 0x200, some 0xF165⟩) := by decide

/-! ### Display (expected: 95_test_vectors.md, T3, Display) -/

theorem test_cls :
    seen (step { ready 0x00E0 [(0xF, 3)] with fb := cells [0, 2047] })
      (fun t => (t.fb, t.getV 0xF, t.outputs)) = some (0, 3, [.frame 0]) := by decide +kernel

theorem test_drw_wraps_both_ways :
    seen (step { ready 0xD012 [(0, 62), (1, 31)] with index := 0x300, mem := [(0x200, 0xD0), (0x201, 0x12), (0x300, 0xFF), (0x301, 0x81)] })
      (fun t => (lit t.fb, t.getV 0xF)) =
      some ([5, 62, 1984, 1985, 1986, 1987, 1988, 1989, 2046, 2047], 0) := by decide +kernel

theorem test_drw_collides :
    seen (step { ready 0xD011 [] with fb := cells [0], index := 0x300, mem := [(0x200, 0xD0), (0x201, 0x11), (0x300, 0xC0)] })
      (fun t => (lit t.fb, t.getV 0xF, t.outputs.length)) = some ([1], 1, 1) := by decide +kernel

/-! ### Keyboard and timers (expected: 95_test_vectors.md, Keyboard and timers) -/

theorem test_skp :
    seen (step { ready 0xE29E [(2, 7)] with key := some 7 }) (fun t => t.pc) = some 0x204 ∧
    seen (step { ready 0xE29E [(2, 0x17)] with key := some 7 }) (fun t => t.pc) = some 0x202 ∧
    seen (step (ready 0xE29E [(2, 7)])) (fun t => t.pc) = some 0x202 := by decide

theorem test_sknp :
    seen (step { ready 0xE2A1 [(2, 7)] with key := some 7 }) (fun t => t.pc) = some 0x202 ∧
    seen (step (ready 0xE2A1 [(2, 7)])) (fun t => t.pc) = some 0x204 := by decide

theorem test_ld_k_holds : seen (step (ready 0xF30A [(3, 9)])) (fun t => (t.getV 3, t.pc)) = some (9, 0x200) := by decide

theorem test_ld_k_loads :
    seen (step { ready 0xF30A [(3, 9)] with key := some 0 }) (fun t => (t.getV 3, t.pc, t.key)) =
      some (0, 0x202, some 0) := by decide

theorem test_timers :
    seen (step { ready 0xF107 [] with dt := 0x2A }) (fun t => (t.getV 1, t.dt)) = some (0x2A, 0x2A) ∧
    seen (step (ready 0xF015 [(0, 0x3C)])) (fun t => (t.dt, t.st)) = some (0x3C, 0) ∧
    seen (step (ready 0xF018 [(0, 2)])) (fun t => (t.st, soundOn t)) = some (2, true) := by decide

/-! ### Host events and faults (expected: 95_test_vectors.md, T6 to T8, Host events and faults) -/

theorem test_timer_tick :
    seen (step { runningWith .tclk with dt := 1, st := 0 }) (fun t => (t.dt, t.st)) = some (0, 0) ∧
    seen (step { runningWith .tclk with dt := 5, fault := some ⟨.stackUnderflow, 0x200, some 0x00EE⟩ })
      (fun t => t.dt) = some 4 ∧
    seen (step { runningWith .tclk with dt := 5, runState := .paused }) (fun t => t.dt) = some 5 := by decide

theorem test_keys :
    seen (step { runningWith (.pressKey 7) with key := some 3 }) (fun t => t.key) = some (some 7) ∧
    seen (step { runningWith (.pressKey 16) with key := some 2 }) (fun t => t.key) = some (some 2) ∧
    seen (step { runningWith .releaseKey with key := some 7 }) (fun t => t.key) = some none := by decide

theorem test_load_rom :
    seen (step { runningWith (.loadRom [0x12, 0x00] false) with
        pc := 0x3A4, stack := [0x200, 0x210], fault := some ⟨.stackUnderflow, 0x3A4, some 0x00EE⟩, mem := [(0x300, 5)] })
      (fun t => (t.pc, t.sp, t.fault, bytesAt t [0, 0x200, 0x201, 0x300], t.runState)) =
      some (0x200, 0, none, [0xF0, 0x12, 0, 0], .paused) := by decide

theorem test_stop :
    seen (step { runningWith .stop with fb := cells [5], mem := [(0x300, 5)], key := some 1 })
      (fun t => (t.fb, bytesAt t [0x300], t.key, t.runState, t.outputs)) =
      some (0, [5], some 1, .stopped, []) := by decide +kernel

theorem test_clock_rate :
    seen (step { runningWith (.setClockRate 700) with runState := .paused }) (fun t => t.runState) = some .running := by
  decide

/-! ### Witnesses: the hypotheses of each obligation, met by a concrete state and operands, each clause at a boundary -/

/-- A state that meets the invariant, with stored bytes, a full stack and an event to come. -/
def sample : State :=
  { State.reset with
    mem := [(0x200, 0xFF), (0x201, 0x55), (0xFFF, 7)], stack := List.replicate 16 0x202, index := 0xFF0
    runState := .running }

theorem witness_EveryStepKeepsTheInvariant :
    sample.Inv ∧ ∃ t, step sample = .next t ∧ t.mem ≠ sample.mem := by
  refine ⟨by decide, ?_⟩
  exact ⟨_, rfl, by decide⟩

theorem witness_LowMemoryStaysAsConstructed :
    sample.Inv ∧ sample.params.lowWrite = .fault ∧ (∃ t, step sample = .next t ∧ t.pc = 0x202) ∧
    bytesAt sample [79, 80, 0x1FF] = [0x80, 0, 0] := by
  refine ⟨by decide, rfl, ?_, by decide⟩
  exact ⟨_, rfl, by decide⟩

theorem witness_EveryStepKeepsTheParameters :
    ∃ t, step { sample with params := quirks .vy .msb } = .next t ∧ t.params = quirks .vy .msb :=
  ⟨_, rfl, by decide⟩

/-- Both clauses, at the highest PC that can be fetched from. -/
theorem witness_StepRunsTheDecodedInstruction :
    let s : State := { State.reset with runState := .running, pc := 0xFFE, mem := [(0xFFE, 0x6B), (0xFFF, 0x02)] }
    s.runState = .running ∧ s.fault = none ∧ s.pc.toNat ≤ 0xFFE ∧
    decode [s.readByte s.pc.toNat, s.readByte (s.pc.toNat + 1)] = .ok (.ldImm 0xB 0x02, []) ∧
    wellFormed (.ldImm 0xB 0x02) = true ∧ s.inputs = [] ∧
    ({ s with inputs := [.iclk, .tclk] } : State).inputs = .iclk :: [.tclk] :=
  ⟨rfl, rfl, by decide, rfl, rfl, rfl, rfl⟩

theorem witness_FetchIsBigEndianAndFaultsOutsideMemory :
    let s : State := { State.reset with pc := 0xFFE, mem := [(0xFFE, 0x6B), (0xFFF, 0x02)] }
    let u : State := { State.reset with pc := 0xFFF, runState := .running }
    (s.pc.toNat ≤ 0xFFE ∧ s.fetch = some 0x6B02) ∧
    (0xFFE < u.pc.toNat ∧ u.runState = .running ∧ u.fault = none ∧ u.inputs = []) ∧
    ({ u with inputs := [.iclk, .tclk] } : State).inputs.head? = some .iclk := by decide

theorem witness_PlacedOpcodeIsTheOneExecuted :
    Memory.wf sample.params.font sample.mem ∧ (sample.withFetchWord 16 0xF155).mem ≠ sample.mem := by decide

theorem witness_DecodeOfEncodeIsTheInstruction :
    wellFormed (.drw 0xF 0 15) = true ∧ wellFormed (.sys 0x0EF) = true ∧ wellFormed (.undef 0xFFFF) = true := by decide

theorem witness_RetReturnsPastTheCallOrUnderflows :
    ({ State.reset with stack := [0xFFE] } : State).stack = 0xFFE :: [] ∧ State.reset.stack = [] := ⟨rfl, rfl⟩

/-- One entry below the full stack, and the full stack. -/
theorem witness_CallPushesItsAddressOrOverflows :
    let s : State := { State.reset with stack := List.replicate 15 0x200 }
    s.sp < s.params.stackDepth ∧ sample.params.stackDepth ≤ sample.sp := by decide

theorem witness_CallThenRetGoesOnAfterTheCall :
    let s : State := { State.reset with stack := List.replicate 15 0x200, pc := 0x204 }
    s.sp < s.params.stackDepth := by decide

theorem witness_EveryInstructionSetsPcAsR24Says :
    (∃ t, exec (.jpV0 0xFFF) sample = .next t ∧ t.fault = none) ∧
    (∃ t, exec (.ldVxK 3) sample = .next t ∧ t.fault = none ∧ sample.key = none) ∧
    (∃ t, exec .ret sample = .next t ∧ t.fault = none) ∧
    (∃ t, exec (.skp 0) sample = .next t ∧ t.fault = none) ∧
    (sample.fault = none ∧ ∃ t, exec (.call 0x300) sample = .next t ∧ t.fault ≠ none) :=
  ⟨⟨_, rfl, rfl⟩, ⟨_, rfl, rfl, rfl⟩, ⟨_, rfl, rfl⟩, ⟨_, rfl, rfl⟩, rfl, _, rfl, by decide⟩

/-- Both destinations, VF and another register, under the hardware's parameters. -/
theorem witness_ShiftRightHalvesVx :
    sample.params.shiftSource = .vx ∧ (0xE : Reg) ≠ regF ∧ (0xF : Reg) = regF := by decide

theorem witness_ShiftLeftDoublesVx :
    sample.params.shiftSource = .vx ∧ sample.params.shlFlag = .lsb ∧ (quirks .vx .msb).shiftSource = .vx ∧
    (quirks .vx .msb).shlFlag ≠ .lsb ∧ (0xE : Reg) ≠ regF ∧ (0xF : Reg) = regF := by decide

theorem witness_ShiftsReadVyUnderTheQuirk :
    let s : State := { State.reset with params := quirks .vy .lsb }
    s.params.shiftSource = .vy ∧ s.params.shlFlag = .lsb ∧ (0xE : Reg) ≠ regF := by decide

theorem witness_ShiftLeftOfVyWithTheMsbFlag :
    let s : State := { State.reset with params := quirks .vy .msb }
    s.params.shiftSource = .vy ∧ s.params.shlFlag = .msb ∧ (0xE : Reg) ≠ regF := by decide

theorem witness_ResultWinsInTheFlagRegister :
    State.reset.params.shiftSource = .vx ∧ State.reset.params.shlFlag = .lsb := by decide

theorem witness_RegistersChangeOnlyWhereNamed :
    ∃ t, exec (.loadRegs 2) { sample with index := 0xFFD } = .next t ∧ (3 : Reg) ∉ regWrites (.loadRegs 2) ∧
      t.getV 2 = 7 :=
  ⟨_, rfl, by decide, by decide⟩

/-- The lowest and the highest range that can be stored to, and the ranges one address below and above them. -/
theorem witness_DecimalDigitsAreStored :
    Memory.wf State.reset.params.font (atIndex 0x200).mem ∧ Storable (atIndex 0x200) (atIndex 0x200).base 3 ∧
    Storable (atIndex 0xFFD) (atIndex 0xFFD).base 3 ∧ ¬ Storable (atIndex 0x1FF) (atIndex 0x1FF).base 3 ∧
    ¬ Storable (atIndex 0xFFE) (atIndex 0xFFE).base 3 ∧ ¬ Storable (atIndex 0xFFFF) (atIndex 0xFFFF).base 3 := by decide

theorem witness_RegistersAreStoredFromI :
    Memory.wf State.reset.params.font (atIndex 0x200).mem ∧
    Storable (atIndex 0x200) (atIndex 0x200).base ((15 : Reg).toNat + 1) ∧
    Storable (atIndex 0xFF0) (atIndex 0xFF0).base ((15 : Reg).toNat + 1) ∧
    ¬ Storable (atIndex 0x1FF) (atIndex 0x1FF).base ((15 : Reg).toNat + 1) ∧
    ¬ Storable (atIndex 0xFF1) (atIndex 0xFF1).base ((15 : Reg).toNat + 1) := by decide

theorem witness_RegistersAreLoadedFromI :
    Readable (atIndex 0).base ((15 : Reg).toNat + 1) ∧ Readable (atIndex 0xFF0).base ((15 : Reg).toNat + 1) ∧
    ¬ Readable (atIndex 0xFF1).base ((15 : Reg).toNat + 1) ∧ ¬ Readable (atIndex 0xFFFF).base ((0 : Reg).toNat + 1) := by
  decide

theorem witness_StoreThenLoadRoundTrips :
    Memory.wf sample.params.font sample.mem ∧ Storable sample sample.base ((15 : Reg).toNat + 1) ∧
    ∃ t, exec (.storeRegs 15) sample = .next t ∧
      ∃ u : State, u.mem = t.mem ∧ u.params = t.params ∧ u.index = sample.index ∧ u.v ≠ t.v :=
  ⟨by decide, by decide, _, rfl,
    { sample with mem := [(0x200, 0xFF), (0x201, 0x55)], v := Vector.replicate 16 1 }, by decide, rfl, rfl, by decide⟩

theorem witness_StoredBytesAreFetchedAtOnce :
    Memory.wf sample.params.font sample.mem ∧ Storable sample sample.base ((15 : Reg).toNat + 1) ∧
    (∃ t, exec (.storeRegs 15) sample = .next t) ∧ (15 : Reg).toNat = (14 : Reg).toNat + 1 ∧
    (15 : Reg).toNat ≤ (15 : Reg).toNat :=
  ⟨by decide, by decide, ⟨_, rfl⟩, by decide, by decide⟩

theorem witness_EachPartChangesOnlyWhereNamed :
    (∃ t, exec (.addReg 1 2) sample = .next t) ∧ (∀ x, Instr.addReg 1 2 ≠ .ldB x) ∧
    (∀ x, Instr.addReg 1 2 ≠ .storeRegs x) ∧ (∀ n, Instr.addReg 1 2 ≠ .call n) ∧
    (∀ x y n, Instr.addReg 1 2 ≠ .drw x y n) ∧ (∀ x kk, Instr.addReg 1 2 ≠ .rnd x kk) :=
  ⟨⟨_, rfl⟩, by simp, by simp, by simp, by simp, by simp⟩

/-- The highest sprite of five rows, one row too high, and no rows at all at the highest I. -/
theorem witness_DrawTogglesTheCoveredCells :
    Readable (atIndex 0xFFB).base (5 : Nibble).toNat ∧ ¬ Readable (atIndex 0xFFC).base (5 : Nibble).toNat ∧
    Readable (atIndex 0xFFFF).base (0 : Nibble).toNat ∧
    SpriteCovers { atIndex 0 with v := (Vector.replicate 16 0).set 0 62 } 0 1 1 1 0 := by
  refine ⟨by decide, by decide, by decide, 0, by decide, by decide, 3, by decide, by decide, by decide⟩

theorem witness_DrawTwiceRestoresTheFrame :
    Readable (atIndex 0xFFB).base (5 : Nibble).toNat ∧ (0 : Reg) ≠ regF ∧ (0xE : Reg) ≠ regF := by decide

theorem witness_FrameEventsComeFromClsAndDrwAlone :
    (∃ t, exec (.drw 0 1 5) (atIndex 0xFFC) = .next t) ∧ (∃ t, exec .cls sample = .next t) ∧
    (runningWith .stop).inputs = .stop :: [] ∧ ∃ t, step (runningWith .stop) = .next t :=
  ⟨⟨_, rfl⟩, ⟨_, rfl⟩, rfl, ⟨_, rfl⟩⟩

theorem witness_WaitForKeyHoldsOrLoads :
    sample.key = none ∧ ({ sample with key := some 0 } : State).key = some 0 ∧
    ({ sample with key := some 15 } : State).key = some 15 := ⟨rfl, rfl, rfl⟩

theorem witness_AwaitingKeyIsTheHold :
    (ready 0xF30A []).inputs = [] ∧ (statusOf (ready 0xF30A [])).awaitingKey = true ∧
    (statusOf { ready 0xF30A [] with inputs := [.iclk, .tclk] }).awaitingKey = true ∧
    ({ ready 0xF30A [] with inputs := [.iclk, .tclk] } : State).inputs.head? = some .iclk ∧
    (statusOf { ready 0xF30A [] with key := some 0 }).awaitingKey = false := by decide

theorem witness_FaultsArePrecise :
    (ready 0x00EE []).fault = none ∧ ∃ t, step (ready 0x00EE []) = .next t ∧ t.fault ≠ none :=
  ⟨rfl, _, rfl, by decide⟩

theorem witness_OnlyTheListedConditionsFault :
    sample.fault = none ∧ (∃ t, exec (.call 0x300) sample = .next t) ∧ faultCondition sample (.call 0x300) ∧
    ¬ faultCondition sample (.storeRegs 15) ∧ faultCondition { sample with index := 0xFF1 } (.storeRegs 15) := by
  refine ⟨rfl, ⟨_, rfl⟩, ?_, ?_, ?_⟩
  · show (16 : Nat) ≤ 16
    decide
  · show ¬ ¬ Storable sample sample.base 16
    decide
  · show ¬ Storable { sample with index := 0xFF1 } 0xFF1 16
    decide

/-- A fault latched, with an image one byte too long next, and with a timer tick next. -/
theorem witness_LatchedFaultFreezesTheUnit :
    let r : FaultRecord := ⟨.stackUnderflow, 0x200, some 0x00EE⟩
    let s : State := { runningWith (.loadRom (List.replicate 3585 1)) with fault := some r }
    let u : State := { runningWith .tclk with fault := some r }
    (s.fault = some r ∧ s.inputs.head? ≠ some .stop ∧
      (∀ bytes a, s.inputs.head? = some (.loadRom bytes a) → 3584 < bytes.length) ∧ ∃ t, step s = .next t) ∧
    (u.fault = some r ∧ u.inputs.head? ≠ some .stop ∧
      (∀ bytes a, u.inputs.head? = some (.loadRom bytes a) → 3584 < bytes.length) ∧ ∃ t, step u = .next t) := by
  refine ⟨⟨rfl, ?_, ?_, _, rfl⟩, ⟨rfl, by simp [runningWith], ?_, _, rfl⟩⟩
  · intro h
    cases Option.some.inj h
  · intro bytes a h
    simp only [runningWith, List.head?_cons, Option.some.injEq, Event.loadRom.injEq] at h
    rw [← h.1, List.length_replicate]
    decide
  · intro bytes a h
    simp [runningWith] at h

/-- The second clause: a fault latched, with the empty list, and with an instruction tick listed first while Running. -/
theorem witness_LatchedFaultFreezesTheUnit_ticks :
    let r : FaultRecord := ⟨.stackUnderflow, 0x200, some 0x00EE⟩
    (({ State.reset with fault := some r } : State).fault ≠ none ∧ ({ State.reset with fault := some r } : State).inputs = []) ∧
    ({ runningWith .iclk with fault := some r, dt := 5 } : State).fault ≠ none ∧
    ({ runningWith .iclk with fault := some r, dt := 5 } : State).inputs.head? = some .iclk := by decide

theorem witness_TimerTickCountsDown :
    (runningWith .tclk).inputs = .tclk :: [] ∧ (runningWith .tclk).runState = .running ∧
    ({ runningWith .tclk with runState := .paused } : State).runState ≠ .running := by decide

theorem witness_TimerTicksAddUp :
    let s : State := { State.reset with runState := .running, dt := 3, st := 1, inputs := [.tclk, .tclk, .iclk] }
    s.runState = .running ∧ s.inputs = List.replicate 2 .tclk ++ [.iclk] := by decide

theorem witness_KeyEventsWriteTheLatch :
    ((runningWith (.pressKey 15)).inputs = .pressKey 15 :: [] ∧ 15 < 16) ∧
    ((runningWith (.pressKey 16)).inputs = .pressKey 16 :: [] ∧ 15 < 16) ∧
    (runningWith .releaseKey).inputs = .releaseKey :: [] := by decide

/-- The largest image that is accepted, the smallest that is refused, and the empty one. -/
theorem witness_LoadRomResetsAndPlacesTheImage :
    (runningWith (.loadRom (List.replicate 3584 1) false)).inputs = .loadRom (List.replicate 3584 1) false :: [] ∧
    (List.replicate 3584 (1 : Byte)).length ≤ 3584 ∧ 3584 < (List.replicate 3585 (1 : Byte)).length ∧
    ([] : List Byte).length ≤ 3584 :=
  ⟨rfl, by rw [List.length_replicate], by rw [List.length_replicate]; decide, by decide⟩

theorem witness_LifecycleCommandsMoveTheRunState :
    (runningWith .start).inputs = .start :: [] ∧ (runningWith .pause).inputs = .pause :: [] ∧
    (runningWith .stop).inputs = .stop :: [] ∧ (runningWith (.setClockRate 0)).inputs = .setClockRate 0 :: [] ∧
    (runningWith .observeFrames).inputs = .observeFrames :: [] :=
  ⟨rfl, rfl, rfl, rfl, rfl⟩

theorem witness_NoTickStepsUnlessRunning :
    State.reset.runState ≠ .running ∧ State.reset.inputs = [] ∧
    ({ State.reset with inputs := [.iclk], runState := .paused } : State).inputs.head? = some .iclk ∧
    ({ State.reset with inputs := [.tclk], runState := .paused } : State).inputs.head? = some .tclk := by decide

/-- The last entry that lies in memory, and the address past it. -/
theorem witness_ListingDecodesWithoutExecuting :
    0 < 30 ∧ 0xFFE + 2 * 0 ≤ 0xFFE ∧ ¬ (0xFFE + 2 * 1 ≤ 0xFFE) := by decide

/-- The last byte of the font and the first byte past it. -/
theorem witness_ConstructionLeavesTheTabledState : 79 < 80 ∧ 80 ≤ 80 ∧ bytesAt State.reset [79, 80] = [0x80, 0] := by decide

/-- A destination that is not VF, with the true sum on either side of the carry. -/
theorem witness_AddRegistersSumAndCarry :
    (0xE : Reg) ≠ regF ∧ ¬ 255 < (0xFF : Byte).toNat + (0x00 : Byte).toNat ∧ 255 < (0xFF : Byte).toNat + (0x01 : Byte).toNat := by
  decide

/-- A destination that is not VF, with equal operands and with a borrow. -/
theorem witness_SubtractionsDifferenceAndNoBorrow :
    (0xE : Reg) ≠ regF ∧ ¬ (7 : Byte).toNat < (7 : Byte).toNat ∧ (6 : Byte).toNat < (7 : Byte).toNat := by decide

theorem witness_RandomByteIsMasked : (0 : Byte) = 0 ∧ ∃ t, exec (.rnd 3 0) sample = .next t ∧ t.draws = 1 :=
  ⟨rfl, _, rfl, rfl⟩

end Sys2Proof.Tests
end

section
/-! SUPPORT. What the fetch, the decoder and a step with an instruction tick next answer, and the proofs of the statements of 00_scope.md. -/

namespace Sys2Proof.Machine

/-- Two bytes decode to the instruction of the opcode they form, with nothing left over. -/
theorem decode_pair_eq_ok_iff (hi lo : Byte) (i : Instr) :
    decode [hi, lo] = .ok (i, []) ↔ decodeOpcode (opcodeOf hi lo) = i := by
  simp only [decode, Except.ok.injEq, Prod.mk.injEq, and_true]

/-- With PC and PC + 1 inside Mem the fetch is the opcode of the two bytes there (20_memory.md R52). -/
theorem State.fetch_of_le {s : State} (h : s.pc.toNat ≤ 0xFFE) :
    s.fetch = some (opcodeOf (s.readByte s.pc.toNat) (s.readByte (s.pc.toNat + 1))) :=
  if_pos h

/-- A step with an instruction tick next, while Running with no fault latched, executes the opcode the fetch gives, the list moved on. -/
theorem step_of_fetch {s : State} {w : Word} (hi : s.inputs = [] ∨ s.inputs.head? = some .iclk)
    (hr : s.runState = .running) (hf : s.fault = none) (hw : s.fetch = some w) :
    step s = exec (decodeOpcode w) { s with inputs := s.inputs.tail } := by
  rw [step_of_running_tick hi hr hf, hw]

/-- An empty list of events has nothing to move on. -/
theorem State.inputs_tail_of_nil {s : State} (h : s.inputs = []) : ({ s with inputs := s.inputs.tail } : State) = s := by
  rw [h, List.tail_nil, ← h]

/-- Settles O7: the bytes of `decode` are the bytes of the fetch, so the tick executes `i`; the two clauses are the two forms of the list. -/
theorem stepRunsTheDecodedInstruction : Obligations.StepRunsTheDecodedInstruction := by
  intro s i hr hf hpc hdec _
  have hdecoded := (decode_pair_eq_ok_iff _ _ i).mp hdec
  have hstep (hi : s.inputs = [] ∨ s.inputs.head? = some .iclk) :
      step s = exec i { s with inputs := s.inputs.tail } := by
    rw [step_of_fetch hi hr hf (State.fetch_of_le hpc), hdecoded]
  constructor
  · intro hnil
    rw [hstep (.inl hnil), State.inputs_tail_of_nil hnil]
  · intro rest hcons
    rw [hstep (.inr (by rw [hcons, List.head?_cons])), hcons, List.tail_cons]

end Sys2Proof.Machine
end

section
/-! SUPPORT. The execute phase said once: every instruction is one checked effect. `execFault` is the cause it latches, `completed` the state it
leaves when no check fails, and `exec_eq_checked` ties the two to `exec`. -/

namespace Sys2Proof.Machine

/-- The cause an instruction latches in its execute phase (60_exceptions.md R220); `execFault_eq_none_iff` says when it is none. -/
def execFault (s : State) : Instr → Option FaultCause
  | .ret => if s.sp = 0 then some .stackUnderflow else none
  | .call _ => if s.params.stackDepth ≤ s.sp then some .stackOverflow else none
  | .drw _ _ n => firstFault readFault s.base n.toNat
  | .ldB _ => firstFault (writeFault s.params.lowWrite) s.base 3
  | .storeRegs x => firstFault (writeFault s.params.lowWrite) s.base (rangeCount x)
  | .loadRegs x => firstFault readFault s.base (rangeCount x)
  | _ => none

/-- The state an instruction leaves when none of its checks fails. RET on an empty stack has a failing check, so its default is never seen. -/
def completed (s : State) : Instr → State
  | .cls => { s with fb := 0 }.advance.emitFrame
  | .ret => { s with stack := s.stack.tail, pc := s.stack.headD 0 + 2 }
  | .sys _ => s
  | .jmp nnn => { s with pc := zext12 nnn }
  | .call nnn => { s with stack := s.pc :: s.stack, pc := zext12 nnn }
  | .seImm x kk => s.skipIf (s.getV x == kk)
  | .sneImm x kk => s.skipIf (s.getV x != kk)
  | .seReg x y => s.skipIf (s.getV x == s.getV y)
  | .ldImm x kk => (s.setV x kk).advance
  | .addImm x kk => (s.setV x (s.getV x + kk)).advance
  | .ldReg x y => (s.setV x (s.getV y)).advance
  | .or x y => (s.setV x (s.getV x ||| s.getV y)).advance
  | .and x y => (s.setV x (s.getV x &&& s.getV y)).advance
  | .xor x y => (s.setV x (s.getV x ^^^ s.getV y)).advance
  | .addReg x y => s.flagThenResult x (carryFlag (s.getV x) (s.getV y)) (s.getV x + s.getV y)
  | .sub x y => s.flagThenResult x (noBorrowFlag (s.getV x) (s.getV y)) (s.getV x - s.getV y)
  | .shr x y => s.shifted x y shrFlag (fun b => b >>> 1)
  | .subn x y => s.flagThenResult x (noBorrowFlag (s.getV y) (s.getV x)) (s.getV y - s.getV x)
  | .shl x y => s.shifted x y (shlFlagOf s.params.shlFlag) (fun b => b <<< 1)
  | .sneReg x y => s.skipIf (s.getV x != s.getV y)
  | .ldI nnn => { s with index := zext12 nnn }.advance
  | .jpV0 nnn => { s with pc := zext12 nnn + zext8 (s.getV 0) }
  | .rnd x kk => (s.setV x (s.randomByte &&& kk)).drawn.advance
  | .drw x y n =>
    let drawn := drawSprite s.readByte s.base (s.getV x).toNat (s.getV y).toNat n.toNat s.fb
    ({ s with fb := drawn.1 }.setFlag (collisionFlag drawn.2)).advance.emitFrame
  | .skp x => s.skipIf (s.keyIs x)
  | .sknp x => s.skipIf (!s.keyIs x)
  | .ldVxDT x => (s.setV x s.dt).advance
  | .ldVxK x => s.key.elim s (fun k => (s.setV x (zextKey k)).advance)
  | .ldDTVx x => { s with dt := s.getV x }.advance
  | .ldSTVx x => { s with st := s.getV x }.advance
  | .addI x => { s with index := s.index + zext8 (s.getV x) }.advance
  | .ldF x => { s with index := zext8 (s.getV x) * 5 }.advance
  | .ldB x => (s.storeBytes s.base (decimalDigits (s.getV x))).advance
  | .storeRegs x => ((s.storeBytes s.base (s.regBytes x)).advanceIndex (rangeCount x)).advance
  | .loadRegs x => ((s.loadRange s.base (rangeCount x)).advanceIndex (rangeCount x)).advance
  | .undef _ => s.advance

/-- Every instruction is one checked effect: the fault of its failing check with nothing else changed, else the completed state. -/
theorem exec_eq_checked (i : Instr) (s : State) :
    exec i s = checked (execFault s i) (opcodeFor i) s (completed s i) := by
  cases i with
  | ret =>
    cases h : s.stack <;> simp [exec, execRet, execFault, completed, State.sp, raise_eq, h]
  | call nnn =>
    by_cases h : s.sp < s.params.stackDepth
    · simp [exec, execCall, execFault, completed, h, Nat.not_le_of_lt h]
    · simp [exec, execCall, execFault, raise_eq, h, Nat.le_of_not_lt h]
  | ldVxK x => cases h : s.key <;> simp [exec, execLdVxK, execFault, completed, h]
  | _ => rfl

/-- What an instruction can answer: its completed state, or the record of its failing check with nothing else changed. -/
theorem exec_cases {i : Instr} {s t : State} (h : exec i s = .next t) :
    (execFault s i = none ∧ t = completed s i) ∨
      ∃ c, execFault s i = some c ∧ t = { s with fault := some ⟨c, s.pc, some (opcodeFor i)⟩ } :=
  checked_cases (exec_eq_checked i s ▸ h)

/-- All checks of an instruction pass exactly when none of the conditions of 60_exceptions.md R220 holds. -/
theorem execFault_eq_none_iff (s : State) (i : Instr) : execFault s i = none ↔ ¬ faultCondition s i := by
  cases i with
  | ret => simp [execFault, faultCondition]
  | call nnn => simp [execFault, faultCondition]
  | drw x y n => exact (firstFault_read_eq_none _ _).trans not_not.symm
  | ldB x => exact (firstFault_write_eq_none s _ 3 (by decide)).trans not_not.symm
  | storeRegs x => exact (firstFault_write_eq_none s _ _ (Nat.succ_pos _)).trans not_not.symm
  | loadRegs x => exact (firstFault_read_eq_none _ _).trans not_not.symm
  | _ => simp [execFault, faultCondition]

/-- The fault of a range is that of one of its addresses. -/
theorem exists_check_of_firstFault {check : Nat → Option FaultCause} {base n : Nat} {c : FaultCause}
    (h : firstFault check base n = some c) : ∃ a, check a = some c := by
  obtain ⟨k, -, hk, -⟩ := firstFault_eq_some.mp h
  exact ⟨base + k, hk⟩

theorem readFault_ne_fetch (a : Nat) : readFault a ≠ some .fetchOutOfRange := by
  unfold readFault
  split <;> simp

theorem writeFault_ne_fetch (p : LowWritePolicy) (a : Nat) : writeFault p a ≠ some .fetchOutOfRange := by
  unfold writeFault
  split
  · simp
  · split <;> simp

/-- The execute phase latches no fetch fault: that one is the fetch's own (60_exceptions.md R223). -/
theorem execFault_ne_fetch (s : State) (i : Instr) : execFault s i ≠ some .fetchOutOfRange := by
  have hread (base n : Nat) : firstFault readFault base n ≠ some .fetchOutOfRange := fun h =>
    (exists_check_of_firstFault h).elim readFault_ne_fetch
  have hwrite (base n : Nat) : firstFault (writeFault s.params.lowWrite) base n ≠ some .fetchOutOfRange := fun h =>
    (exists_check_of_firstFault h).elim (writeFault_ne_fetch _)
  cases i with
  | ret => simp [execFault]
  | call nnn => simp [execFault]
  | drw x y n => exact hread _ _
  | ldB x => exact hwrite _ _
  | storeRegs x => exact hwrite _ _
  | loadRegs x => exact hread _ _
  | _ => simp [execFault]

/-! ### What a completed instruction leaves unchanged -/

/-- A shift changes registers and PC alone. -/
theorem State.shifted_eq_regs (s : State) (x y : Reg) (f g : Byte → Byte) :
    s.shifted x y f g = { s with v := (s.shifted x y f g).v, pc := s.pc + 2 } := by
  rw [State.shifted_eq]
  cases s.params.shiftSource <;> rfl

/-- A completed SHR changes registers and PC alone. -/
theorem completed_shr (s : State) (x y : Reg) :
    completed s (.shr x y) = { s with v := (completed s (.shr x y)).v, pc := s.pc + 2 } :=
  State.shifted_eq_regs s x y shrFlag (fun b => b >>> 1)

/-- A completed SHL changes registers and PC alone. -/
theorem completed_shl (s : State) (x y : Reg) :
    completed s (.shl x y) = { s with v := (completed s (.shl x y)).v, pc := s.pc + 2 } :=
  State.shifted_eq_regs s x y (shlFlagOf s.params.shlFlag) (fun b => b <<< 1)

/-- A completed LD Vx,K changes registers and PC alone, whether it holds or loads the key (44_keyboard_timers.md R202). -/
theorem completed_ldVxK (s : State) (x : Reg) :
    completed s (.ldVxK x) = { s with v := (completed s (.ldVxK x)).v, pc := (completed s (.ldVxK x)).pc } := by
  obtain h | ⟨k, h⟩ := Option.eq_none_or_eq_some s.key
  · have hold : completed s (.ldVxK x) = s := by simp [completed, h]
    rw [hold]
  · have hload : completed s (.ldVxK x) = (s.setV x (zextKey k)).advance := by simp [completed, h]
    rw [hload]
    rfl

/-- A completed LD Vx,[I] changes registers, I and PC alone. -/
theorem completed_loadRegs (s : State) (x : Reg) :
    completed s (.loadRegs x) =
      { s with
        v := (completed s (.loadRegs x)).v, index := s.index + BitVec.ofNat 16 (rangeCount x), pc := s.pc + 2 } :=
  congrArg (fun t : State => (t.advanceIndex (rangeCount x)).advance) (s.loadRange_eq s.base (rangeCount x))

/-- No completed instruction changes the key latch, run_state, the parameters or the events still to arrive. -/
theorem completed_environment (s : State) (i : Instr) : SameEnvironment s (completed s i) := by
  cases i with
  | shr x y => rw [completed_shr]; exact ⟨rfl, rfl, rfl, rfl⟩
  | shl x y => rw [completed_shl]; exact ⟨rfl, rfl, rfl, rfl⟩
  | loadRegs x => rw [completed_loadRegs]; exact ⟨rfl, rfl, rfl, rfl⟩
  | ldVxK x => rw [completed_ldVxK]; exact ⟨rfl, rfl, rfl, rfl⟩
  | _ => exact ⟨rfl, rfl, rfl, rfl⟩

@[simp] theorem completed_params (s : State) (i : Instr) : (completed s i).params = s.params := by
  obtain ⟨-, -, hparams, -⟩ := completed_environment s i
  exact hparams

/-- No completed instruction changes the fault latch. -/
@[simp] theorem completed_fault (s : State) (i : Instr) : (completed s i).fault = s.fault := by
  cases i with
  | shr x y => rw [completed_shr]
  | shl x y => rw [completed_shl]
  | loadRegs x => rw [completed_loadRegs]
  | ldVxK x => rw [completed_ldVxK]
  | _ => rfl

/-- No completed instruction but LD B and LD [I],Vx changes memory. -/
theorem completed_mem (s : State) {i : Instr} (hB : ∀ x, i ≠ .ldB x) (hI : ∀ x, i ≠ .storeRegs x) :
    (completed s i).mem = s.mem := by
  cases i with
  | ldB x => exact absurd rfl (hB x)
  | storeRegs x => exact absurd rfl (hI x)
  | shr x y => rw [completed_shr]
  | shl x y => rw [completed_shl]
  | loadRegs x => rw [completed_loadRegs]
  | ldVxK x => rw [completed_ldVxK]
  | _ => rfl

/-- No completed instruction but RET and CALL changes the stack. -/
theorem completed_stack (s : State) {i : Instr} (hret : i ≠ .ret) (hcall : ∀ nnn, i ≠ .call nnn) :
    (completed s i).stack = s.stack := by
  cases i with
  | ret => exact absurd rfl hret
  | call nnn => exact absurd rfl (hcall nnn)
  | shr x y => rw [completed_shr]
  | shl x y => rw [completed_shl]
  | loadRegs x => rw [completed_loadRegs]
  | ldVxK x => rw [completed_ldVxK]
  | _ => rfl

end Sys2Proof.Machine
end

section
/-! SUPPORT. The invariant of reachable states (10_state.md R39) under every agent, and the proofs of O2 to O5. The part of it that speaks of
memory is `Memory.Inv`; the rest is the bounded stack and the latch. -/

namespace Sys2Proof.Machine

/-! ### The memory part of the invariant -/

/-- The two conjuncts of `State.Inv` about memory: the canonical form, and nothing listed below 0x200 under LOW_WRITE_POLICY = fault. -/
def Memory.Inv (p : Params) (m : Memory) : Prop :=
  Memory.wf p.font m ∧ (p.lowWrite = .fault → ∀ c ∈ m, Config.romOrigin ≤ c.1)

theorem State.Inv.memory {s : State} (h : s.Inv) : Memory.Inv s.params s.mem := by
  obtain ⟨hwf, -, hlow, -⟩ := h
  exact ⟨hwf, hlow⟩

theorem State.Inv.sp_le {s : State} (h : s.Inv) : s.sp ≤ s.params.stackDepth := by
  obtain ⟨-, hsp, -, -⟩ := h
  exact hsp

/-- With no fault latched the invariant is the memory part and the bounded stack. -/
theorem State.inv_of_fault_none {s : State} (hmem : Memory.Inv s.params s.mem) (hsp : s.sp ≤ s.params.stackDepth)
    (hf : s.fault = none) : s.Inv :=
  ⟨hmem.1, hsp, hmem.2, fun r hr => by simp [hf] at hr⟩

/-- Latching a record that agrees with PC keeps the invariant. -/
theorem State.Inv.latch {s : State} (h : s.Inv) {r : FaultRecord} (hr : r.agrees s.pc) :
    ({ s with fault := some r } : State).Inv := by
  obtain ⟨hwf, hsp, hlow, -⟩ := h
  exact ⟨hwf, hsp, hlow, fun _ hq => Option.some.inj hq ▸ hr⟩

theorem Memory.Inv.nil (p : Params) : Memory.Inv p [] :=
  ⟨⟨List.Pairwise.nil, by simp⟩, by simp⟩

/-- Storing bytes at a storable range keeps the memory part: the checks of the store are the ones it needs (20_memory.md R57). -/
theorem Memory.Inv.writeAll {s : State} {base : Nat} {bytes : List Byte} (h : Memory.Inv s.params s.mem)
    (hok : Storable s base bytes.length) :
    Memory.Inv s.params (Memory.writeAll s.params.font s.mem base bytes) := by
  obtain ⟨hwf, hlow⟩ := h
  obtain ⟨hend, hbase⟩ := hok
  refine ⟨Memory.writeAll_wf _ base bytes hend hwf, fun hp c hc => ?_⟩
  rcases Memory.mem_writeAll _ hc with hold | hnew
  · exact hlow hp c hold
  · exact (hbase hp).trans hnew.1

/-- Loading an accepted image keeps the memory part: what it keeps was listed before, and the image lies from 0x200 on (20_memory.md R67). -/
theorem Memory.Inv.loaded {p : Params} {m : Memory} {bytes : List Byte} (hl : bytes.length ≤ Config.maxRom)
    (h : Memory.Inv p m) : Memory.Inv p (Memory.loaded m bytes) := by
  obtain ⟨hwf, hlow⟩ := h
  refine ⟨Memory.loaded_wf _ hl hwf, fun hp c hc => ?_⟩
  rcases List.mem_append.mp hc with hold | hnew
  · exact hlow hp c (List.mem_of_mem_filter hold)
  · exact (Memory.mem_image hnew).1.1

/-! ### The execute phase -/

@[simp] theorem decimalDigits_length (b : Byte) : (decimalDigits b).length = 3 := rfl

@[simp] theorem State.regBytes_length (s : State) (x : Reg) : (s.regBytes x).length = rangeCount x := by
  simp [State.regBytes]

/-- An instruction whose checks pass keeps the memory part. -/
theorem completed_memoryInv {s : State} {i : Instr} (h : Memory.Inv s.params s.mem) (hok : ¬ faultCondition s i) :
    Memory.Inv s.params (completed s i).mem := by
  cases i with
  | ldB x => exact h.writeAll (not_not.mp hok)
  | storeRegs x => exact h.writeAll ((s.regBytes_length x).symm ▸ not_not.mp hok)
  | _ => rw [completed_mem s]; exacts [h, nofun, nofun]

/-- An instruction whose checks pass keeps the stack within STACK_DEPTH: CALL pushes only where there is room. -/
theorem completed_sp_le {s : State} {i : Instr} (h : s.sp ≤ s.params.stackDepth) (hok : ¬ faultCondition s i) :
    (completed s i).sp ≤ s.params.stackDepth := by
  cases i with
  | ret => exact (List.tail_sublist _).length_le.trans h
  | call nnn => exact Nat.lt_of_not_le hok
  | _ => rw [State.sp, completed_stack s]; exacts [h, nofun, nofun]

/-- The record an instruction latches agrees with PC: it names the opcode, and its cause is no fetch fault (60_exceptions.md R230). -/
theorem execFault_agrees {s : State} {i : Instr} {c : FaultCause} (h : execFault s i = some c) :
    FaultRecord.agrees ⟨c, s.pc, some (opcodeFor i)⟩ s.pc :=
  ⟨rfl, by simpa using fun hc : c = .fetchOutOfRange => execFault_ne_fetch s i (hc ▸ h)⟩

/-- Executing an instruction with no fault latched keeps the invariant. -/
theorem exec_inv {i : Instr} {s t : State} (h : s.Inv) (hf : s.fault = none) (he : exec i s = .next t) : t.Inv := by
  obtain ⟨hnone, rfl⟩ | ⟨c, hc, rfl⟩ := exec_cases he
  · have hok := (execFault_eq_none_iff s i).mp hnone
    have hp := completed_params s i
    exact State.inv_of_fault_none (hp ▸ completed_memoryInv h.memory hok) (hp ▸ completed_sp_le h.sp_le hok)
      ((completed_fault s i).trans hf)
  · exact h.latch (execFault_agrees hc)

/-- What an instruction tick can answer: the same state where no step is taken, the fetch fault, or what the fetched instruction answers. -/
theorem instrTick_cases {s t : State} (h : instrTick s = .next t) :
    t = s ∨ s.fault = none ∧
      (t = { s with fault := some ⟨.fetchOutOfRange, s.pc, none⟩ } ∨ ∃ w, exec (decodeOpcode w) s = .next t) := by
  cases ht : s.ticking with
  | false =>
    rw [instrTick_of_not_ticking ht] at h
    exact .inl (Host.Outcome.next.inj h).symm
  | true =>
    rw [instrTick_of_ticking ht] at h
    refine .inr ⟨((State.ticking_eq_true s).mp ht).2, ?_⟩
    cases hw : s.fetch with
    | none => rw [hw] at h; exact .inl (Host.Outcome.next.inj h).symm
    | some w => rw [hw] at h; exact .inr ⟨w, h⟩

theorem instrTick_inv {s t : State} (h : s.Inv) (ht : instrTick s = .next t) : t.Inv := by
  obtain rfl | ⟨hf, rfl | ⟨w, he⟩⟩ := instrTick_cases ht
  · exact h
  · exact h.latch ⟨rfl, iff_of_true rfl rfl⟩
  · exact exec_inv h hf he

/-! ### The timer unit and the host -/

theorem timerTick_inv {s : State} (h : s.Inv) : (timerTick s).Inv := by
  unfold timerTick
  split <;> exact h

theorem pressKey_inv {s : State} (k : Nat) (h : s.Inv) : (pressKey k s).Inv := by
  unfold pressKey
  split <;> exact h

theorem pause_inv {s : State} (h : s.Inv) : (pause s).Inv := by
  unfold pause
  split <;> exact h

/-- The CPU reset empties the stack and the latch and keeps memory (10_state.md R37). -/
theorem resetCpu_inv {s : State} (h : s.Inv) : (resetCpu s).Inv :=
  State.inv_of_fault_none h.memory (Nat.zero_le _) rfl

theorem stop_inv {s : State} (h : s.Inv) : (stop s).Inv :=
  resetCpu_inv (s := s) h

theorem loadRom_inv {s : State} (bytes : List Byte) (autoStart : Bool) (h : s.Inv) :
    (loadRom bytes autoStart s).Inv := by
  unfold loadRom
  split
  · exact State.inv_of_fault_none (h.memory.loaded ‹_›) (Nat.zero_le _) rfl
  · exact h

theorem deliver_inv {e : Event} {s t : State} (h : s.Inv) (hd : deliver e s = .next t) : t.Inv := by
  cases e with
  | iclk => exact instrTick_inv h hd
  | tclk => exact Host.Outcome.next.inj hd ▸ timerTick_inv h
  | pressKey k => exact Host.Outcome.next.inj hd ▸ pressKey_inv k h
  | releaseKey => exact Host.Outcome.next.inj hd ▸ h
  | loadRom bytes autoStart => exact Host.Outcome.next.inj hd ▸ loadRom_inv bytes autoStart h
  | start => exact Host.Outcome.next.inj hd ▸ h
  | pause => exact Host.Outcome.next.inj hd ▸ pause_inv h
  | stop => exact Host.Outcome.next.inj hd ▸ stop_inv h
  | setClockRate hz => exact Host.Outcome.next.inj hd ▸ pause_inv h
  | observeFrames => exact Host.Outcome.next.inj hd ▸ h

/-! ### The step -/

/-- A step delivers the oldest event listed, or an instruction tick where none is, the list moved on (assumption 1). -/
theorem step_eq_deliver (s : State) :
    step s = deliver (s.inputs.headD .iclk) { s with inputs := s.inputs.tail } := by
  cases h : s.inputs with
  | nil => rw [step_of_tick (.inl h), h]; rfl
  | cons e rest => exact step_of_event h

/-- Settles O3: the step delivers one event, and every delivery keeps the invariant. -/
theorem everyStepKeepsTheInvariant : Obligations.EveryStepKeepsTheInvariant := by
  intro s t h hstep
  rw [step_eq_deliver] at hstep
  exact deliver_inv (s := { s with inputs := s.inputs.tail }) h hstep

/-- Settles O2: after construction memory lists nothing, the stack is empty and the latch is clear. -/
theorem constructionMeetsTheInvariant : Obligations.ConstructionMeetsTheInvariant :=
  State.inv_of_fault_none (Memory.Inv.nil _) (Nat.zero_le _) rfl

/-! ### The parameters -/

theorem exec_params {i : Instr} {s t : State} (h : exec i s = .next t) : t.params = s.params := by
  obtain ⟨-, rfl⟩ | ⟨c, -, rfl⟩ := exec_cases h
  · exact completed_params s i
  · rfl

theorem instrTick_params {s t : State} (h : instrTick s = .next t) : t.params = s.params := by
  obtain rfl | ⟨-, rfl | ⟨w, he⟩⟩ := instrTick_cases h
  · rfl
  · rfl
  · exact exec_params he

theorem timerTick_params (s : State) : (timerTick s).params = s.params := by
  unfold timerTick
  split <;> rfl

theorem pressKey_params (k : Nat) (s : State) : (pressKey k s).params = s.params := by
  unfold pressKey
  split <;> rfl

theorem pause_params (s : State) : (pause s).params = s.params := by
  unfold pause
  split <;> rfl

theorem loadRom_params (bytes : List Byte) (autoStart : Bool) (s : State) :
    (loadRom bytes autoStart s).params = s.params := by
  unfold loadRom
  split <;> rfl

theorem deliver_params {e : Event} {s t : State} (hd : deliver e s = .next t) : t.params = s.params := by
  cases e with
  | iclk => exact instrTick_params hd
  | tclk => exact Host.Outcome.next.inj hd ▸ timerTick_params s
  | pressKey k => exact Host.Outcome.next.inj hd ▸ pressKey_params k s
  | loadRom bytes autoStart => exact Host.Outcome.next.inj hd ▸ loadRom_params bytes autoStart s
  | pause => exact Host.Outcome.next.inj hd ▸ pause_params s
  | setClockRate hz => exact Host.Outcome.next.inj hd ▸ pause_params s
  | releaseKey | start | stop | observeFrames => exact Host.Outcome.next.inj hd ▸ rfl

/-- Settles O5: the step delivers one event, and no delivery changes the parameters. -/
theorem everyStepKeepsTheParameters : Obligations.EveryStepKeepsTheParameters := by
  intro s t hstep
  rw [step_eq_deliver] at hstep
  exact deliver_params (s := { s with inputs := s.inputs.tail }) hstep

/-! ### Memory below 0x200 -/

/-- Under LOW_WRITE_POLICY = fault the invariant fixes every byte below 0x200: nothing is listed there. -/
theorem State.Inv.readByte_low {s : State} (h : s.Inv) (hp : s.params.lowWrite = .fault) {a : Nat}
    (ha : a < Config.romOrigin) : s.readByte a = Memory.unlisted s.params.font a :=
  Memory.read_unlisted _ fun c hc hca => absurd (hca ▸ h.memory.2 hp c hc) (Nat.not_le_of_lt ha)

theorem Memory.unlisted_font (font : Vector Byte 80) {a : Nat} (h : a < 80) :
    Memory.unlisted font a = font[a] :=
  dif_pos h

/-- Settles O4: the state after the step meets the invariant with the same parameters, and the invariant fixes the bytes below 0x200. -/
theorem lowMemoryStaysAsConstructed : Obligations.LowMemoryStaysAsConstructed := by
  intro s t h hp hstep
  have ht : t.Inv := everyStepKeepsTheInvariant s t h hstep
  have hparams : t.params = s.params := everyStepKeepsTheParameters s t hstep
  have hlow {a : Nat} (ha : a < 0x200) : t.readByte a = Memory.unlisted s.params.font a :=
    hparams ▸ ht.readByte_low (hparams ▸ hp) ha
  constructor
  · intro a ha
    rw [hlow (by omega), Memory.unlisted_font _ ha]
  · intro a hge hlt
    rw [hlow hlt, Memory.unlisted_zero _ hge]

end Sys2Proof.Machine
end

section
/-! SUPPORT. What a completed instruction writes to the registers and to PC, and the proofs of O34 and O23. -/

namespace Sys2Proof.Machine

/-! ### Registers -/

theorem sameRegsBut_setV (s : State) (x : Reg) (b : Byte) : SameRegsBut [x] s (s.setV x b) := fun _ hr =>
  s.getV_setV_other b (List.mem_singleton.not.mp hr)

/-- The flag-and-result write touches Vx and VF alone (41_alu.md R143). -/
theorem sameRegsBut_flagThenResult (s : State) (x : Reg) (f b : Byte) :
    SameRegsBut [x, regF] s (s.flagThenResult x f b) := by
  intro r hr
  obtain ⟨hx, hF⟩ : r ≠ x ∧ r ≠ regF := by simpa using hr
  rw [State.getV_flagThenResult, if_neg hx, if_neg hF]

theorem sameRegsBut_shifted (s : State) (x y : Reg) (f g : Byte → Byte) :
    SameRegsBut [x, regF] s (s.shifted x y f g) := by
  rw [State.shifted_eq]
  cases s.params.shiftSource <;> exact sameRegsBut_flagThenResult s x _ _

/-- The registers named for LD Vx,[I] are all of V[0] to V[x]. -/
theorem mem_regWrites_loadRegs {x r : Reg} (h : r.toNat ≤ x.toNat) : r ∈ regWrites (.loadRegs x) :=
  List.mem_map.mpr ⟨r.toNat, List.mem_range.mpr (Nat.lt_succ_of_le h), by simp⟩

/-- LD Vx,[I] loads no register above x (42_index_memory.md R165). -/
theorem sameRegsBut_loadRange (s : State) (base : Nat) (x : Reg) :
    SameRegsBut (regWrites (.loadRegs x)) s (s.loadRange base (rangeCount x)) := by
  intro r hr
  have hx : ¬ r.toNat < rangeCount x := fun h => hr (mem_regWrites_loadRegs (Nat.le_of_lt_succ h))
  rw [State.getV_loadRange s base (rangeCount x) x.isLt, if_neg hx]

/-- A completed instruction writes no register but the ones named for it. -/
theorem completed_regs (s : State) (i : Instr) : SameRegsBut (regWrites i) s (completed s i) := by
  cases i with
  | ldImm x kk | addImm x kk | rnd x kk => exact sameRegsBut_setV s x _
  | ldReg x y | or x y | and x y | xor x y => exact sameRegsBut_setV s x _
  | ldVxDT x => exact sameRegsBut_setV s x _
  | ldVxK x =>
    cases h : s.key with
    | none => simp [completed, h, SameRegsBut]
    | some k => rw [completed, h]; exact sameRegsBut_setV s x (zextKey k)
  | addReg x y | sub x y | subn x y => exact sameRegsBut_flagThenResult s x _ _
  | shr x y | shl x y => exact sameRegsBut_shifted s x y _ _
  | drw x y n => exact sameRegsBut_setV s regF _
  | loadRegs x => exact sameRegsBut_loadRange s s.base x
  | _ => exact fun _ _ => rfl

/-- Settles O34: a completed instruction writes only the registers named for it, and taking a fault writes none. -/
theorem registersChangeOnlyWhereNamed : Obligations.RegistersChangeOnlyWhereNamed := by
  intro i s t h
  obtain ⟨-, rfl⟩ | ⟨c, -, rfl⟩ := exec_cases h
  · exact completed_regs s i
  · exact fun _ _ => rfl

/-! ### PC -/

@[simp] theorem toNat_zext12 (nnn : Addr12) : (zext12 nnn).toNat = nnn.toNat :=
  BitVec.toNat_setWidth_of_le (by decide)

@[simp] theorem toNat_zext8 (b : Byte) : (zext8 b).toNat = b.toNat :=
  BitVec.toNat_setWidth_of_le (by decide)

@[simp] theorem toNat_zextKey (k : Nibble) : (zextKey k).toNat = k.toNat :=
  BitVec.toNat_setWidth_of_le (by decide)

/-- The key comparison is one of values: the held key's code against the whole register (44_keyboard_timers.md R200). -/
theorem State.keyIs_iff (s : State) (x : Reg) :
    s.keyIs x = true ↔ s.key.map BitVec.toNat = some (s.getV x).toNat := by
  cases h : s.key with
  | none => simp [State.keyIs, h]
  | some k => simp [State.keyIs, h, BitVec.toNat_eq]

/-- Settles O23: the completed state's PC, instruction by instruction; taking a fault leaves PC, and nothing else latches one. -/
theorem everyInstructionSetsPcAsR24Says : Obligations.EveryInstructionSetsPcAsR24Says := by
  constructor
  · intro i s t h hf
    obtain ⟨hok, rfl⟩ | ⟨c, -, rfl⟩ := exec_cases h
    · cases i with
      | ret =>
        cases hs : s.stack with
        | nil => simp [execFault, State.sp, hs] at hok
        | cons a rest => exact ⟨a, rfl, by simp [completed, hs]⟩
      | jmp nnn | call nnn => exact toNat_zext12 nnn
      | jpV0 nnn => simp [completed]
      | seImm x kk | sneImm x kk => simp [completed]
      | seReg x y | sneReg x y => simp [completed]
      | skp x => simp only [completed, State.skipIf_pc, ← State.keyIs_iff]
      | sknp x => simp only [completed, State.skipIf_pc, ne_eq, ← State.keyIs_iff, Bool.not_eq_true', Bool.not_eq_true]
      | ldVxK x => cases hk : s.key <;> simp [completed, hk]
      | shr x y => rw [completed_shr]
      | shl x y => rw [completed_shl]
      | loadRegs x => rw [completed_loadRegs]
      | _ => exact rfl
    · simp at hf
  · intro i s t hs h hf
    obtain ⟨-, rfl⟩ | ⟨c, -, rfl⟩ := exec_cases h
    · exact absurd ((completed_fault s i).trans hs) hf
    · rfl

end Sys2Proof.Machine
end

section
/-! SUPPORT. What the fetch reads from memory after a store, which parts a completed instruction leaves alone, and the proofs of O8, O9, O41
and O42. -/

namespace Sys2Proof.Machine

/-! ### The fetch -/

/-- With PC or PC + 1 outside Mem there is no opcode (20_memory.md R52). -/
theorem State.fetch_of_gt {s : State} (h : 0xFFE < s.pc.toNat) : s.fetch = none :=
  if_neg (Nat.not_le_of_lt h)

/-- The fetch with PC moved to an address reads the two bytes there. -/
theorem State.fetch_with_pc {s : State} {pc : Word} {a : Nat} (hpc : pc.toNat = a) (ha : a ≤ 0xFFE) :
    ({ s with pc := pc } : State).fetch = some (opcodeOf (s.readByte a) (s.readByte (a + 1))) := by
  subst hpc
  exact State.fetch_of_le (s := { s with pc := pc }) ha

/-- Settles O8: the fetch joins the bytes with the lower address in the upper half, and a tick with no opcode latches the fetch fault. -/
theorem fetchIsBigEndianAndFaultsOutsideMemory : Obligations.FetchIsBigEndianAndFaultsOutsideMemory := by
  constructor
  · intro s hpc
    exact ⟨_, State.fetch_of_le hpc, opcodeOf_toNat _ _⟩
  · intro s hpc
    have hnone : s.fetch = none := State.fetch_of_gt hpc
    refine ⟨hnone, fun hr hf hi => ?_⟩
    rw [step_of_running_tick hi hr hf, hnone]
    exact raise_eq _ _ _

/-! ### An opcode placed where the next step fetches -/

theorem fetchablePc_le (s : State) : (fetchablePc s).toNat ≤ 0xFFE := by
  unfold fetchablePc
  split
  · assumption
  · decide

/-- All 16 bits of an opcode are placed. -/
theorem withFetchWord_toNat (s : State) (w : Word) : s.withFetchWord 16 w.toNat = placeOpcode w s := by
  rw [State.withFetchWord, Nat.mod_eq_of_lt w.isLt, BitVec.ofNat_toNat, BitVec.setWidth_eq]

/-- The fetch finds the opcode placed for it: the fields set beside memory and PC are not read. -/
theorem fetch_placeOpcode (w : Word) {s : State} (h : Memory.wf s.params.font s.mem) :
    (placeOpcode w s).fetch = some w := by
  have hhi : (placeOpcode w s).readByte (fetchablePc s).toNat = w.extractLsb' 8 8 :=
    State.readByte_storeBytes_inside (fetchablePc s).toNat (opcodeBytes w) h (k := 0) Nat.zero_lt_two
  have hlo : (placeOpcode w s).readByte ((fetchablePc s).toNat + 1) = w.extractLsb' 0 8 :=
    State.readByte_storeBytes_inside (fetchablePc s).toNat (opcodeBytes w) h (k := 1) Nat.one_lt_two
  have hpc : (placeOpcode w s).pc = fetchablePc s := rfl
  rw [State.fetch_of_le (hpc ▸ fetchablePc_le s), hpc, hhi, hlo, opcodeOf_bytes]

/-- Settles O9: the placed state is ready for a tick, and its fetch finds the opcode placed. -/
theorem placedOpcodeIsTheOneExecuted : Obligations.PlacedOpcodeIsTheOneExecuted := by
  intro s w hwf
  rw [withFetchWord_toNat, step_of_fetch (.inl rfl) rfl rfl (fetch_placeOpcode w hwf), State.inputs_tail_of_nil rfl]

/-! ### Bytes stored by LD [I],Vx -/

/-- An instruction whose checks pass answers its completed state. -/
theorem exec_of_not_faultCondition {i : Instr} {s : State} (h : ¬ faultCondition s i) :
    exec i s = .next (completed s i) := by
  rw [exec_eq_checked, (execFault_eq_none_iff s i).mpr h, checked_none]

/-- LD [I],Vx puts V[r] at I + r (42_index_memory.md R164). -/
theorem readByte_completed_storeRegs {s : State} {x r : Reg} (h : Memory.wf s.params.font s.mem)
    (hr : r.toNat ≤ x.toNat) : (completed s (.storeRegs x)).readByte (s.base + r.toNat) = s.getV r := by
  have hk : r.toNat < (s.regBytes x).length := (s.regBytes_length x).symm ▸ Nat.lt_succ_of_le hr
  calc (completed s (.storeRegs x)).readByte (s.base + r.toNat)
      = (s.storeBytes s.base (s.regBytes x)).readByte (s.base + r.toNat) := rfl
    _ = (s.regBytes x)[r.toNat] := State.readByte_storeBytes_inside _ _ h hk
    _ = s.getV r := by simp [State.regBytes]

/-- Settles O41: the store completes, and the fetch at I + q reads the two bytes it put there. -/
theorem storedBytesAreFetchedAtOnce : Obligations.StoredBytesAreFetchedAtOnce := by
  intro s t x q r hwf hstore hexec hqr hrx
  have ht : t = completed s (.storeRegs x) :=
    Host.Outcome.next.inj (hexec.symm.trans (exec_of_not_faultCondition (i := .storeRegs x) (not_not.mpr hstore)))
  have hhi : t.readByte (s.base + q.toNat) = s.getV q := ht ▸ readByte_completed_storeRegs hwf (by omega)
  have hlo : t.readByte (s.base + q.toNat + 1) = s.getV r := by
    rw [Nat.add_assoc, ← hqr, ht]
    exact readByte_completed_storeRegs hwf hrx
  have hpc : (BitVec.ofNat 16 (s.base + q.toNat)).toNat = s.base + q.toNat := by
    rw [BitVec.toNat_ofNat, Nat.mod_eq_of_lt (by omega)]
  refine ⟨opcodeOf (s.getV q) (s.getV r), ?_, opcodeOf_toNat _ _⟩
  rw [State.fetch_with_pc hpc (by omega), hhi, hlo]

/-! ### The parts of the state an instruction names -/

/-- A completed instruction changes the display, DT, ST, the draw count and I only where it names them: each constructor that changes one of
these is excluded by a premise of its conjunct. -/
theorem completed_parts (s : State) (i : Instr) :
    (i ≠ .cls → (∀ x y n, i ≠ .drw x y n) → SameDisplay s (completed s i)) ∧
    ((∀ x, i ≠ .ldDTVx x) → (completed s i).dt = s.dt) ∧
    ((∀ x, i ≠ .ldSTVx x) → (completed s i).st = s.st) ∧
    ((∀ x kk, i ≠ .rnd x kk) → (completed s i).draws = s.draws) ∧
    ((∀ n, i ≠ .ldI n) → (∀ x, i ≠ .addI x) → (∀ x, i ≠ .ldF x) → (∀ x, i ≠ .storeRegs x) →
      (∀ x, i ≠ .loadRegs x) → (completed s i).index = s.index) := by
  cases i with
  | shr x y => rw [completed_shr]; simp [SameDisplay]
  | shl x y => rw [completed_shl]; simp [SameDisplay]
  | loadRegs x => rw [completed_loadRegs]; simp [SameDisplay]
  | ldVxK x => rw [completed_ldVxK]; simp [SameDisplay]
  | _ => simp [completed, SameDisplay]

/-- Settles O42: a completed instruction changes only the parts it names, and taking a fault changes the latch alone. -/
theorem eachPartChangesOnlyWhereNamed : Obligations.EachPartChangesOnlyWhereNamed := by
  intro i s t h
  obtain ⟨-, rfl⟩ | ⟨c, -, rfl⟩ := exec_cases h
  · exact ⟨completed_environment s i,
      fun hB hI => State.readByte_congr (completed_mem s hB hI) (completed_params s i),
      completed_stack s, completed_parts s i⟩
  · exact ⟨⟨rfl, rfl, rfl, rfl⟩, fun _ _ _ => rfl, fun _ _ => rfl, fun _ _ => ⟨rfl, rfl⟩, fun _ => rfl, fun _ => rfl,
      fun _ => rfl, fun _ _ _ _ _ => rfl⟩

end Sys2Proof.Machine
end

section
/-! SUPPORT. The encoder and the decoder are inverse to each other on the well-formed instructions, so a statement about every opcode is one about
the encoding of every instruction; and the proofs of O10 to O14. -/

namespace Sys2Proof

/-! ### An opcode with known fields -/

theorem formatA_of_fields {w : Word} {b : Nibble} (hb : fieldB0 w = b) : formatA b (fieldNNN w) = w :=
  hb ▸ formatA_fields w

theorem formatI_of_fields {w : Word} {b : Nibble} {low : Byte} (hb : fieldB0 w = b) (hlow : fieldKK w = low) :
    formatI b (fieldX w) low = w :=
  hb ▸ hlow ▸ formatI_fields w

theorem formatR_of_fields {w : Word} {b n : Nibble} (hb : fieldB0 w = b) (hn : fieldN w = n) :
    formatR b (fieldX w) (fieldY w) n = w :=
  hb ▸ hn ▸ formatR_fields w

theorem formatA_inj {b b' : Nibble} {m m' : Addr12} : formatA b m = formatA b' m' ↔ b = b' ∧ m = m' :=
  ⟨fun h => ⟨by simpa using congrArg fieldB0 h, by simpa using congrArg fieldNNN h⟩, by rintro ⟨rfl, rfl⟩; rfl⟩

theorem formatI_inj {b b' : Nibble} {x x' : Reg} {k k' : Byte} :
    formatI b x k = formatI b' x' k' ↔ b = b' ∧ x = x' ∧ k = k' :=
  ⟨fun h => ⟨by simpa using congrArg fieldB0 h, by simpa using congrArg fieldX h, by simpa using congrArg fieldKK h⟩,
    by rintro ⟨rfl, rfl, rfl⟩; rfl⟩

theorem formatR_inj {b b' : Nibble} {x x' y y' : Reg} {n n' : Nibble} :
    formatR b x y n = formatR b' x' y' n' ↔ b = b' ∧ x = x' ∧ y = y' ∧ n = n' :=
  ⟨fun h => ⟨by simpa using congrArg fieldB0 h, by simpa using congrArg fieldX h, by simpa using congrArg fieldY h,
    by simpa using congrArg fieldN h⟩, by rintro ⟨rfl, rfl, rfl, rfl⟩; rfl⟩

/-! The fields of `p` are written out below, so that `simp` evaluates them where `p` is a literal. -/

/-- An opcode is known by its b0 and nnn fields. -/
theorem word_eq_iff_fields (w p : Word) :
    w = p ↔ fieldB0 w = p.extractLsb' 12 4 ∧ fieldNNN w = p.extractLsb' 0 12 := by
  conv_lhs => rw [← formatA_fields w, ← formatA_fields p, formatA_inj]
  rfl

/-- The opcode list of 30_encoding.md R87 in terms of the fields. -/
theorem isUndefOpcode_iff (w : Word) : isUndefOpcode w = true ↔
    (fieldB0 w = 0x5#4 ∧ fieldN w ≠ 0#4) ∨ (fieldB0 w = 0x9#4 ∧ fieldN w ≠ 0#4) ∨
    (fieldB0 w = 0x8#4 ∧ fieldN w ∈ [0x8#4, 0x9#4, 0xA#4, 0xB#4, 0xC#4, 0xD#4, 0xF#4]) ∨
    (fieldB0 w = 0xE#4 ∧ fieldKK w ∉ [0x9E#8, 0xA1#8]) ∨
    (fieldB0 w = 0xF#4 ∧
      fieldKK w ∉ [0x07#8, 0x0A#8, 0x15#8, 0x18#8, 0x1E#8, 0x29#8, 0x33#8, 0x55#8, 0x65#8]) := by
  simp only [isUndefOpcode, fieldB0, fieldN, fieldKK, Bool.or_eq_true, Bool.and_eq_true, beq_iff_eq, bne_iff_ne,
    Bool.not_eq_true', List.contains_iff_mem, ← Bool.not_eq_true, or_assoc]

/-- The SYS space leaves out the operands of CLS and RET alone. -/
theorem isSysOperand_iff (nnn : Addr12) : isSysOperand nnn = true ↔ nnn ≠ 0x0E0#12 ∧ nnn ≠ 0x0EE#12 := by
  simp [isSysOperand]

/-! ### Encode after decode -/

/-- The opcodes 0nnn other than CLS and RET are the SYS space (30_encoding.md R88). -/
theorem isSysOperand_fieldNNN {w : Word} (hb : fieldB0 w = 0x0#4) (hcls : w ≠ 0x00E0#16) (hret : w ≠ 0x00EE#16) :
    isSysOperand (fieldNNN w) = true := by
  simpa [isSysOperand_iff, word_eq_iff_fields, hb] using And.intro hcls hret

/-- The rows 8xyN: the function nibbles without a row are the ones R87 lists. -/
theorem wellFormed_encode_decode8 {w : Word} (hb : fieldB0 w = 0x8#4) :
    wellFormed (decode8 w) = true ∧ encode (decode8 w) = w := by
  unfold decode8
  split
  case h_10 =>
    refine ⟨(isUndefOpcode_iff w).mpr (.inr (.inr (.inl ⟨hb, ?_⟩))), rfl⟩
    generalize fieldN w = n at *
    decide +revert
  all_goals exact ⟨rfl, formatR_of_fields hb (BitVec.eq_of_toNat_eq ‹_›)⟩

/-- The rows Fxkk: the function bytes without a row are the ones R87 lists. -/
theorem wellFormed_encode_decodeF {w : Word} (hb : fieldB0 w = 0xF#4) :
    wellFormed (decodeF w) = true ∧ encode (decodeF w) = w := by
  unfold decodeF
  split
  case h_10 =>
    refine ⟨(isUndefOpcode_iff w).mpr (.inr (.inr (.inr (.inr ⟨hb, ?_⟩)))), rfl⟩
    simp only [List.mem_cons, List.not_mem_nil, or_false, not_or, BitVec.toNat_eq]
    and_intros <;> assumption
  all_goals exact ⟨rfl, formatI_of_fields hb (BitVec.eq_of_toNat_eq ‹_›)⟩

/-- Settles O11: in each branch of the decode procedure the opcode is the format of the branch, joined from the fields the branch tests and the
fields it takes as operands. -/
theorem encodeOfDecodeIsTheOpcode : Obligations.EncodeOfDecodeIsTheOpcode := by
  intro w
  unfold decodeOpcode
  split
  case h_1 hb => -- CLS, RET and SYS
    have hb : fieldB0 w = 0x0#4 := BitVec.eq_of_toNat_eq hb
    split_ifs with hcls hret
    · exact ⟨rfl, hcls.symm⟩
    · exact ⟨rfl, hret.symm⟩
    · exact ⟨isSysOperand_fieldNNN hb hcls hret, formatA_of_fields hb⟩
  case h_6 hb => -- 5xyN
    have hb : fieldB0 w = 0x5#4 := BitVec.eq_of_toNat_eq hb
    split_ifs with hn
    · exact ⟨rfl, formatR_of_fields hb hn⟩
    · exact ⟨(isUndefOpcode_iff w).mpr (.inl ⟨hb, hn⟩), rfl⟩
  case h_9 hb => exact wellFormed_encode_decode8 (BitVec.eq_of_toNat_eq hb)
  case h_10 hb => -- 9xyN
    have hb : fieldB0 w = 0x9#4 := BitVec.eq_of_toNat_eq hb
    split_ifs with hn
    · exact ⟨rfl, formatR_of_fields hb hn⟩
    · exact ⟨(isUndefOpcode_iff w).mpr (.inr (.inl ⟨hb, hn⟩)), rfl⟩
  case h_15 hb => -- Exkk
    have hb : fieldB0 w = 0xE#4 := BitVec.eq_of_toNat_eq hb
    split_ifs with hskp hsknp
    · exact ⟨rfl, formatI_of_fields hb hskp⟩
    · exact ⟨rfl, formatI_of_fields hb hsknp⟩
    · exact ⟨(isUndefOpcode_iff w).mpr (.inr (.inr (.inr (.inl ⟨hb, by simp [hskp, hsknp]⟩)))), rfl⟩
  case h_16 => -- Fxkk
    have hb : fieldB0 w = 0xF#4 := by
      generalize fieldB0 w = b at *
      decide +revert
    exact wellFormed_encode_decodeF hb
  case h_14 hb => exact ⟨rfl, formatR_of_fields (BitVec.eq_of_toNat_eq hb) rfl⟩
  case h_2 hb | h_3 hb | h_11 hb | h_12 hb => exact ⟨rfl, formatA_of_fields (BitVec.eq_of_toNat_eq hb)⟩
  case h_4 hb | h_5 hb | h_7 hb | h_8 hb | h_13 hb => exact ⟨rfl, formatI_of_fields (BitVec.eq_of_toNat_eq hb) rfl⟩

/-! ### Decode after encode -/

/-- Only UNDEF is encoded as an opcode of R87's list: the fixed fields of every other row are outside it. -/
theorem eq_undef_of_isUndefOpcode_encode {i : Instr} (h : isUndefOpcode (encode i) = true) :
    i = .undef (encode i) := by
  cases i with
  | undef w => rfl
  | cls | ret => exact absurd h (by decide)
  | _ => simp [isUndefOpcode_iff, encode] at h

/-- An opcode decodes to UNDEF exactly when R87 lists it. -/
theorem decodeOpcode_eq_undef_iff (w : Word) : decodeOpcode w = .undef w ↔ isUndefOpcode w = true := by
  obtain ⟨hwf, henc⟩ := encodeOfDecodeIsTheOpcode w
  constructor
  · intro h
    rwa [h] at hwf
  · intro h
    rw [← henc] at h
    simpa only [henc] using eq_undef_of_isUndefOpcode_encode h

/-- Settles O10: the fields read back from each format are the operands and the function the decode procedure tests; SYS and UNDEF are where
well-formedness is needed. -/
theorem decodeOfEncodeIsTheInstruction : Obligations.DecodeOfEncodeIsTheInstruction := by
  intro i h
  cases i with
  | cls | ret => rfl
  | sys nnn =>
    obtain ⟨hcls, hret⟩ := (isSysOperand_iff nnn).mp h
    simp [encode, decodeOpcode, word_eq_iff_fields, hcls, hret]
  | undef w => exact (decodeOpcode_eq_undef_iff w).mpr h
  | _ => simp [encode, decodeOpcode, decode8, decodeF]

/-! ### The list of R87 by number -/

@[simp] theorem toNat_fieldB0 (w : Word) : (fieldB0 w).toNat = w.toNat / 4096 := by
  rw [fieldB0, BitVec.extractLsb'_toNat, Nat.shiftRight_eq_div_pow]
  omega

@[simp] theorem toNat_fieldN (w : Word) : (fieldN w).toNat = w.toNat % 16 := by
  rw [fieldN, BitVec.extractLsb'_toNat, Nat.shiftRight_zero]

@[simp] theorem toNat_fieldKK (w : Word) : (fieldKK w).toNat = w.toNat % 256 := by
  rw [fieldKK, BitVec.extractLsb'_toNat, Nat.shiftRight_zero]

/-- Settles O13: an opcode decodes to UNDEF when the list has its fields, and a field is a quotient or a remainder of its value. -/
theorem undefIsExactlyTheListedOpcodes : Obligations.UndefIsExactlyTheListedOpcodes := by
  intro w
  rw [decodeOpcode_eq_undef_iff, isUndefOpcode_iff]
  have hn : fieldN w ∈ [0x8#4, 0x9#4, 0xA#4, 0xB#4, 0xC#4, 0xD#4, 0xF#4] ↔
      8 ≤ w.toNat % 16 ∧ w.toNat % 16 ≠ 14 := by
    rw [← toNat_fieldN]
    generalize fieldN w = n
    decide +revert
  simp [hn, BitVec.toNat_eq, or_and_right, or_assoc]

/-! ### The opcode map -/

/-- A row with the mask 0xF000 matches by b0. -/
@[simp] theorem and_maskA_eq_iff (w p : Word) :
    w &&& 0xF000#16 = p ↔ fieldB0 w = p.extractLsb' 12 4 ∧ 0#12 = p.extractLsb' 0 12 := by
  conv_lhs => rw [← formatA_fields w, Laws.FixedBits.maskA, ← formatA_fields p, formatA_inj]
  rfl

/-- A row with the mask 0xF0FF matches by b0 and the function byte. -/
@[simp] theorem and_maskX_eq_iff (w p : Word) :
    w &&& 0xF0FF#16 = p ↔
      fieldB0 w = p.extractLsb' 12 4 ∧ 0#4 = p.extractLsb' 8 4 ∧ fieldKK w = p.extractLsb' 0 8 := by
  conv_lhs => rw [← formatI_fields w, Laws.FixedBits.maskX, ← formatI_fields p, formatI_inj]
  rfl

/-- A row with the mask 0xF00F matches by b0 and the function nibble. -/
@[simp] theorem and_maskR_eq_iff (w p : Word) :
    w &&& 0xF00F#16 = p ↔ fieldB0 w = p.extractLsb' 12 4 ∧ 0#4 = p.extractLsb' 8 4 ∧ 0#4 = p.extractLsb' 4 4 ∧
      fieldN w = p.extractLsb' 0 4 := by
  conv_lhs => rw [← formatR_fields w, Laws.FixedBits.maskR, ← formatR_fields p, formatR_inj]
  rfl

/-- A row with the mask 0xFFFF matches one opcode. -/
@[simp] theorem and_mask_eq_iff (w p : Word) :
    w &&& 0xFFFF#16 = p ↔ fieldB0 w = p.extractLsb' 12 4 ∧ fieldNNN w = p.extractLsb' 0 12 := by
  rw [← word_eq_iff_fields, show (0xFFFF#16 : Word) = BitVec.allOnes 16 from rfl, BitVec.and_allOnes]

/-- The first row that matches an opcode of R87's list is the last row. -/
theorem tableDecode_of_isUndefOpcode {w : Word} (h : isUndefOpcode w = true) : tableDecode w = some (.undef w) := by
  obtain ⟨hb, hn⟩ | ⟨hb, hn⟩ | ⟨hb, hn⟩ | ⟨hb, hk⟩ | ⟨hb, hk⟩ := (isUndefOpcode_iff w).mp h
  · simp [tableDecode, opcodeTable, hb, hn]
  · simp [tableDecode, opcodeTable, hb, hn]
  · have hne (n : Nibble) (h : n ∉ [0x8#4, 0x9#4, 0xA#4, 0xB#4, 0xC#4, 0xD#4, 0xF#4]) : fieldN w ≠ n := fun e =>
      h (e ▸ hn)
    simp [tableDecode, opcodeTable, hb, hne]
  · simp only [List.mem_cons, List.not_mem_nil, or_false, not_or] at hk
    simp [tableDecode, opcodeTable, hb, hk]
  · simp only [List.mem_cons, List.not_mem_nil, or_false, not_or] at hk
    simp [tableDecode, opcodeTable, hb, hk]

/-- Settles O12: every opcode is the encoding of what it decodes to, and the first row that matches the encoding of an instruction builds it. -/
theorem decodeAgreesWithTheOpcodeMap : Obligations.DecodeAgreesWithTheOpcodeMap := by
  intro w
  obtain ⟨hwf, henc⟩ := encodeOfDecodeIsTheOpcode w
  suffices h : ∀ i, wellFormed i = true → tableDecode (encode i) = some i by
    simpa only [henc] using h _ hwf
  intro i hi
  cases i with
  | undef w => exact tableDecode_of_isUndefOpcode hi
  | sys nnn =>
    obtain ⟨hcls, hret⟩ := (isSysOperand_iff nnn).mp hi
    simp [encode, tableDecode, opcodeTable, hcls, hret]
  | _ => simp [encode, tableDecode, opcodeTable]

/-- Settles O14: the words are closed, and the decode procedure computes. -/
theorem sampleWordsDecodeAsTabled : Obligations.SampleWordsDecodeAsTabled := by
  unfold Obligations.SampleWordsDecodeAsTabled
  decide

end Sys2Proof
end

section
/-! SUPPORT. The entries of the disassembly listing, and the proof of O60. -/

namespace Sys2Proof.Machine

/-- Entry j of a listing is the one at the address 2j further on, as long as that lies in memory with its second byte. -/
theorem getElem?_disassembleFrom (s : State) (a count j : Nat) :
    (disassembleFrom s a count)[j]? =
      if j < count ∧ a + 2 * j ≤ 0xFFE then some (listingEntry s (a + 2 * j)) else none := by
  induction count generalizing a j with
  | zero => simp [disassembleFrom]
  | succ count ih =>
    rw [disassembleFrom]
    split
    case isTrue h =>
      cases j with
      | zero => simp [h]
      | succ j =>
        have hadd : a + 2 + 2 * j = a + 2 * (j + 1) := by omega
        simp only [List.getElem?_cons_succ, ih, hadd, Nat.add_lt_add_iff_right]
    case isFalse h => rw [if_neg (by omega), List.getElem?_nil]

/-- Settles O60: the listing of `disassemble` is that of `disassembleFrom`, entry by entry. -/
theorem listingDecodesWithoutExecuting : Obligations.ListingDecodesWithoutExecuting :=
  getElem?_disassembleFrom

end Sys2Proof.Machine
end

section
/-! SUPPORT. The control-flow instructions in whole-state form: the stack's top and entries, the skips, the unreduced sum, and the proofs of O15
to O22. -/

namespace Sys2Proof.Machine

/-- An instruction whose check fails with a cause latches it and changes nothing else. -/
theorem exec_of_execFault {i : Instr} {s : State} {c : FaultCause} (h : execFault s i = some c) :
    exec i s = .next { s with fault := some ⟨c, s.pc, some (opcodeFor i)⟩ } := by
  rw [exec_eq_checked, h, checked_some]

/-! ### The stack -/

/-- RET with a top entry pops it and goes past the CALL it names (40_control_flow.md R110). -/
theorem exec_ret_of_cons {s : State} {a : Word} {rest : List Word} (h : s.stack = a :: rest) :
    exec .ret s = .next { s with stack := rest, pc := a + 2 } := by
  have hok : ¬ faultCondition s .ret := by simp [faultCondition, State.sp, h]
  rw [exec_of_not_faultCondition hok, completed, h, List.tail_cons, List.headD_cons]

/-- Settles O15: a top entry passes RET's check, and an empty stack fails it. -/
theorem retReturnsPastTheCallOrUnderflows : Obligations.RetReturnsPastTheCallOrUnderflows := by
  constructor
  · intro s a rest h
    exact exec_ret_of_cons h
  · intro s h
    have hempty : s.sp = 0 := List.length_eq_zero_iff.mpr h
    exact exec_of_execFault (if_pos hempty)

/-- CALL below STACK_DEPTH pushes its own address and goes to nnn (40_control_flow.md R113). -/
theorem exec_call_of_lt {s : State} (nnn : Addr12) (h : s.sp < s.params.stackDepth) :
    exec (.call nnn) s = .next { s with stack := s.pc :: s.stack, pc := zext12 nnn } :=
  exec_of_not_faultCondition (i := .call nnn) (Nat.not_le_of_lt h)

/-- The entry pushed on a stack of SP entries is Stack[SP] (10_state.md R28). -/
theorem State.stackEntry_of_push {s t : State} {a : Word} (h : t.stack = a :: s.stack) :
    t.stackEntry s.sp = some a := by
  simp [State.stackEntry, State.sp, h]

/-- Format A by number: the opcode nibble above the address field (30_encoding.md R83). -/
theorem toNat_formatA (b : Nibble) (nnn : Addr12) : (formatA b nnn).toNat = b.toNat * 0x1000 + nnn.toNat := by
  rw [formatA, BitVec.toNat_append, ← Nat.shiftLeft_add_eq_or_of_lt nnn.isLt, Nat.shiftLeft_eq]

/-- Settles O16: the push completes below STACK_DEPTH; at STACK_DEPTH the opcode recorded is CALL's, of format A. -/
theorem callPushesItsAddressOrOverflows : Obligations.CallPushesItsAddressOrOverflows := by
  constructor
  · intro s nnn h
    exact ⟨_, exec_call_of_lt nnn h, rfl, rfl, State.stackEntry_of_push rfl, toNat_zext12 nnn⟩
  · intro s nnn h
    exact ⟨opcodeFor (.call nnn), toNat_formatA 0x2#4 nnn, exec_of_execFault (if_pos h)⟩

/-- Settles O17: RET pops the address CALL pushed, which leaves the stack as it was before. -/
theorem callThenRetGoesOnAfterTheCall : Obligations.CallThenRetGoesOnAfterTheCall := by
  intro s nnn h
  exact ⟨_, _, exec_call_of_lt nnn h, exec_ret_of_cons rfl, rfl⟩

/-! ### Jumps and UNDEF -/

/-- Settles O18: SYS has no check to fail, and its completed state is the state itself. -/
theorem sysIsACompletedSelfLoop : Obligations.SysIsACompletedSelfLoop := by
  intro s nnn
  exact exec_of_not_faultCondition (i := .sys nnn) not_false

/-- Settles O19: JMP has no check to fail, and the address field keeps its value when zero-extended. -/
theorem jumpGoesToItsAddress : Obligations.JumpGoesToItsAddress := by
  intro s nnn
  exact ⟨_, exec_of_not_faultCondition (i := .jmp nnn) not_false, rfl, toNat_zext12 nnn⟩

/-- The sum of a 12-bit address and a byte fits 16 bits, so it does not wrap (92_eei_decisions.md D2). -/
theorem toNat_zext12_add_zext8 (nnn : Addr12) (b : Byte) : (zext12 nnn + zext8 b).toNat = nnn.toNat + b.toNat := by
  have hfits : (zext12 nnn).toNat + (zext8 b).toNat < 2 ^ 16 := by
    rw [toNat_zext12, toNat_zext8]
    omega
  rw [BitVec.toNat_add_of_lt hfits, toNat_zext12, toNat_zext8]

/-- Settles O20: JP V0 has no check to fail, and its sum does not wrap. -/
theorem jumpV0GoesToTheUnreducedSum : Obligations.JumpV0GoesToTheUnreducedSum := by
  intro s nnn
  exact ⟨_, exec_of_not_faultCondition (i := .jpV0 nnn) not_false, rfl, toNat_zext12_add_zext8 nnn (s.getV 0)⟩

/-- Settles O22: UNDEF has no check to fail, whatever its opcode, and its completed state is the advanced one. -/
theorem undefOnlyAdvances : Obligations.UndefOnlyAdvances := by
  intro s w
  exact exec_of_not_faultCondition (i := .undef w) not_false

/-! ### Skips -/

/-- A skip on equality goes four on when the operands are equal, else two. -/
theorem State.skipIf_beq (s : State) (a b : Byte) :
    s.skipIf (a == b) = { s with pc := if a = b then s.pc + 4 else s.pc + 2 } := by
  simp only [State.skipIf, beq_iff_eq]

/-- A skip on difference goes two on when the operands are equal, else four. -/
theorem State.skipIf_bne (s : State) (a b : Byte) :
    s.skipIf (a != b) = { s with pc := if a = b then s.pc + 2 else s.pc + 4 } := by
  simp only [State.skipIf, bne_iff_ne, ne_eq, ite_not]

/-- Settles O21: no skip has a check to fail, and each compares its two operands for equality or for difference. -/
theorem registerSkipsCompareWhole : Obligations.RegisterSkipsCompareWhole := by
  intro s x y kk
  refine ⟨?seImm, ?sneImm, ?seReg, ?sneReg⟩
  case seImm => rw [exec_of_not_faultCondition (i := .seImm x kk) not_false, completed, State.skipIf_beq]
  case sneImm => rw [exec_of_not_faultCondition (i := .sneImm x kk) not_false, completed, State.skipIf_bne]
  case seReg => rw [exec_of_not_faultCondition (i := .seReg x y) not_false, completed, State.skipIf_beq]
  case sneReg => rw [exec_of_not_faultCondition (i := .sneReg x y) not_false, completed, State.skipIf_bne]

end Sys2Proof.Machine
end

section
/-! SUPPORT. The register instructions: the values of the flags and of the results by number, the two shapes a register instruction's state has
(one register written; the flag and then the result), and the proofs of O24 to O33. -/

namespace Sys2Proof.Machine

/-! ### Flags and results by number -/

theorem toNat_flagOf (p : Prop) [Decidable p] : (flagOf p).toNat = if p then 1 else 0 := by
  by_cases h : p <;> simp [h]

/-- The carry is that of the true sum (41_alu.md R136). -/
theorem toNat_carryFlag (a b : Byte) : (carryFlag a b).toNat = if 255 < a.toNat + b.toNat then 1 else 0 := by
  rw [carryFlag, toNat_flagOf]

/-- No borrow is the negation of a negative true difference (41_alu.md R137, R139). -/
theorem toNat_noBorrowFlag (a b : Byte) : (noBorrowFlag a b).toNat = if a.toNat < b.toNat then 0 else 1 := by
  rw [noBorrowFlag, toNat_flagOf]
  simp only [← Nat.not_lt, ite_not]

theorem toNat_shrFlag (a : Byte) : (shrFlag a).toNat = a.toNat % 2 :=
  BitVec.toNat_umod

theorem toNat_shlFlagOf (f : ShlFlag) (a : Byte) :
    (shlFlagOf f a).toNat = if f = .lsb then a.toNat % 2 else a.toNat / 128 := by
  cases f with
  | lsb => exact BitVec.toNat_umod
  | msb => exact (BitVec.toNat_ushiftRight a 7).trans (Nat.shiftRight_eq_div_pow _ 7)

/-- A flag of SHL is one bit. -/
theorem toNat_shlFlagOf_lt (f : ShlFlag) (a : Byte) : (shlFlagOf f a).toNat < 2 := by
  rw [toNat_shlFlagOf]
  split <;> omega

/-- The difference of two bytes is the non-negative remainder of the true difference (41_alu.md R137, R139). -/
theorem toNat_sub_byte (a b : Byte) : ((a - b).toNat : Int) = (a.toNat - b.toNat : Int) % 256 := by
  rw [BitVec.toNat_sub]
  omega

theorem toNat_ushiftRight_one (a : Byte) : (a >>> 1).toNat = a.toNat / 2 :=
  (BitVec.toNat_ushiftRight a 1).trans (Nat.shiftRight_eq_div_pow _ 1)

theorem toNat_shiftLeft_one (a : Byte) : (a <<< 1).toNat = (2 * a.toNat) % 256 := by
  rw [BitVec.toNat_shiftLeft, Nat.shiftLeft_eq, Nat.mul_comm]

/-- A bit halved is 0. -/
theorem shrFlag_ushiftRight_one (a : Byte) : shrFlag a >>> 1 = 0 := by
  refine BitVec.eq_of_toNat_eq ?_
  rw [toNat_ushiftRight_one, toNat_shrFlag]
  exact Nat.div_eq_of_lt (Nat.mod_lt _ Nat.zero_lt_two)

/-- A bit doubled does not wrap. -/
theorem toNat_shlFlagOf_shiftLeft_one (f : ShlFlag) (a : Byte) :
    (shlFlagOf f a <<< 1).toNat = 2 * (shlFlagOf f a).toNat := by
  have hbit := toNat_shlFlagOf_lt f a
  rw [toNat_shiftLeft_one, Nat.mod_eq_of_lt (by omega)]

/-! ### The state a register instruction leaves -/

/-- A state that differs in registers and PC alone keeps everything outside them. -/
theorem sameOutsideRegs_of_eq {s t : State} (h : t = { s with v := t.v, pc := t.pc }) : SameOutsideRegs s t := by
  rw [h]
  exact ⟨fun _ => rfl, ⟨rfl, rfl, rfl, rfl⟩, ⟨rfl, rfl⟩, ⟨rfl, rfl⟩, rfl, rfl, rfl, rfl⟩

/-- One register written and PC moved on: the value, and what stays. -/
theorem State.setV_advance_spec (s : State) (x : Reg) (b : Byte) :
    (s.setV x b).advance.getV x = b ∧ SameRegsBut [x] s (s.setV x b).advance ∧
      (s.setV x b).advance.pc = s.pc + 2 ∧ SameOutsideRegs s (s.setV x b).advance :=
  ⟨s.getV_setV_same x b, sameRegsBut_setV s x b, rfl, sameOutsideRegs_of_eq rfl⟩

/-- What the flag-and-result write leaves unchanged. -/
theorem State.flagThenResult_frame (s : State) (x : Reg) (f b : Byte) :
    SameRegsBut [x, regF] s (s.flagThenResult x f b) ∧ (s.flagThenResult x f b).pc = s.pc + 2 ∧
      SameOutsideRegs s (s.flagThenResult x f b) :=
  ⟨sameRegsBut_flagThenResult s x f b, rfl, sameOutsideRegs_of_eq rfl⟩

/-- The destination holds the result, VF as the destination too (41_alu.md R143). -/
theorem State.getV_flagThenResult_result (s : State) (x : Reg) (f b : Byte) : (s.flagThenResult x f b).getV x = b := by
  rw [State.getV_flagThenResult, if_pos rfl]

/-- With another destination VF holds the flag. -/
theorem State.getV_flagThenResult_flag (s : State) {x : Reg} (f b : Byte) (h : x ≠ regF) :
    (s.flagThenResult x f b).getV regF = f := by
  rw [State.getV_flagThenResult, if_neg h.symm, if_pos rfl]

/-! ### Loads, logic and the immediate sum -/

/-- Settles O24: none of the five has a check to fail, and each writes its one register. -/
theorem loadsAndLogicWriteOneRegister : Obligations.LoadsAndLogicWriteOneRegister := by
  intro s x y kk
  exact ⟨⟨_, exec_of_not_faultCondition (i := .ldImm x kk) not_false, s.setV_advance_spec x _⟩,
    ⟨_, exec_of_not_faultCondition (i := .ldReg x y) not_false, s.setV_advance_spec x _⟩,
    ⟨_, exec_of_not_faultCondition (i := .or x y) not_false, s.setV_advance_spec x _⟩,
    ⟨_, exec_of_not_faultCondition (i := .and x y) not_false, s.setV_advance_spec x _⟩,
    ⟨_, exec_of_not_faultCondition (i := .xor x y) not_false, s.setV_advance_spec x _⟩⟩

/-- Settles O25: the one register written holds the sum of bytes, which wraps modulo 256. -/
theorem addImmediateWrapsWithoutFlag : Obligations.AddImmediateWrapsWithoutFlag := by
  intro s x kk
  obtain ⟨hsum, hframe⟩ := s.setV_advance_spec x (s.getV x + kk)
  exact ⟨_, exec_of_not_faultCondition (i := .addImm x kk) not_false,
    (congrArg BitVec.toNat hsum).trans (BitVec.toNat_add _ _), hframe⟩

/-! ### Sums and differences with a flag -/

/-- Settles O26: the flag-and-result write with the carry and the sum. -/
theorem addRegistersSumAndCarry : Obligations.AddRegistersSumAndCarry := by
  intro s x y
  refine ⟨s.flagThenResult x (carryFlag (s.getV x) (s.getV y)) (s.getV x + s.getV y),
    exec_of_not_faultCondition (i := .addReg x y) not_false, ?sum, fun hx => ?carry, s.flagThenResult_frame x _ _⟩
  case sum => rw [State.getV_flagThenResult_result, BitVec.toNat_add]
  case carry => rw [State.getV_flagThenResult_flag s _ _ hx, toNat_carryFlag]

/-- The flag-and-result write with no borrow and the difference, for whichever operand is the minuend (41_alu.md R137, R139). -/
theorem State.flagThenResult_difference (s : State) (x : Reg) (a b : Byte) :
    (((s.flagThenResult x (noBorrowFlag a b) (a - b)).getV x).toNat : Int) = (a.toNat - b.toNat : Int) % 256 ∧
      (x ≠ regF → ((s.flagThenResult x (noBorrowFlag a b) (a - b)).getV regF).toNat =
        if a.toNat < b.toNat then 0 else 1) := by
  constructor
  · rw [State.getV_flagThenResult_result, toNat_sub_byte]
  · intro hx
    rw [State.getV_flagThenResult_flag s _ _ hx, toNat_noBorrowFlag]

/-- Settles O27: SUB and SUBN are one write with the minuend and the subtrahend exchanged. -/
theorem subtractionsDifferenceAndNoBorrow : Obligations.SubtractionsDifferenceAndNoBorrow := by
  intro s x y
  constructor
  · obtain ⟨hdiff, hflag⟩ := s.flagThenResult_difference x (s.getV x) (s.getV y)
    exact ⟨_, exec_of_not_faultCondition (i := .sub x y) not_false, hdiff, hflag, s.flagThenResult_frame x _ _⟩
  · obtain ⟨hdiff, hflag⟩ := s.flagThenResult_difference x (s.getV y) (s.getV x)
    exact ⟨_, exec_of_not_faultCondition (i := .subn x y) not_false, hdiff, hflag, s.flagThenResult_frame x _ _⟩

/-! ### Shifts -/

section
variable {s : State} (x y : Reg)

/-- SHR under SHIFT_SOURCE = VX: the halved operand is Vx as the flag write left it (41_alu.md R138, R143). -/
theorem exec_shr_of_vx (h : s.params.shiftSource = .vx) :
    exec (.shr x y) s = .next (s.flagThenResult x (shrFlag (s.getV x))
      ((if x = regF then shrFlag (s.getV x) else s.getV x) >>> 1)) := by
  rw [exec_of_not_faultCondition (i := .shr x y) not_false, completed, State.shifted_eq, h]

/-- SHR under SHIFT_SOURCE = VY (41_alu.md R144). -/
theorem exec_shr_of_vy (h : s.params.shiftSource = .vy) :
    exec (.shr x y) s = .next (s.flagThenResult x (shrFlag (s.getV y)) (s.getV y >>> 1)) := by
  rw [exec_of_not_faultCondition (i := .shr x y) not_false, completed, State.shifted_eq, h]

/-- SHL under SHIFT_SOURCE = VX: the doubled operand is Vx as the flag write left it (41_alu.md R140, R143). -/
theorem exec_shl_of_vx (h : s.params.shiftSource = .vx) :
    exec (.shl x y) s = .next (s.flagThenResult x (shlFlagOf s.params.shlFlag (s.getV x))
      ((if x = regF then shlFlagOf s.params.shlFlag (s.getV x) else s.getV x) <<< 1)) := by
  rw [exec_of_not_faultCondition (i := .shl x y) not_false, completed, State.shifted_eq, h]

/-- SHL under SHIFT_SOURCE = VY, for either flag bit (41_alu.md R144; assumption 11). -/
theorem exec_shl_of_vy (h : s.params.shiftSource = .vy) :
    exec (.shl x y) s =
      .next (s.flagThenResult x (shlFlagOf s.params.shlFlag (s.getV y)) (s.getV y <<< 1)) := by
  rw [exec_of_not_faultCondition (i := .shl x y) not_false, completed, State.shifted_eq, h]

end

/-- Settles O28: with x = F the result halves the flag, a single bit, else Vx. -/
theorem shiftRightHalvesVx : Obligations.ShiftRightHalvesVx := by
  intro s x y h
  refine ⟨_, exec_shr_of_vx x y h, fun hx => ⟨?half, ?flag⟩, fun hx => ?resultOfFlag, s.flagThenResult_frame x _ _⟩
  case half => rw [State.getV_flagThenResult_result, if_neg hx, toNat_ushiftRight_one]
  case flag => rw [State.getV_flagThenResult_flag s _ _ hx, toNat_shrFlag]
  case resultOfFlag =>
    subst hx
    rw [State.getV_flagThenResult_result, if_pos rfl, shrFlag_ushiftRight_one]

/-- Settles O29: with x = F the result doubles the flag, a single bit, else Vx. -/
theorem shiftLeftDoublesVx : Obligations.ShiftLeftDoublesVx := by
  intro s x y h
  refine ⟨_, exec_shl_of_vx x y h, fun hx => ⟨?double, ?flag⟩, fun hx => ?resultOfFlag, s.flagThenResult_frame x _ _⟩
  case double => rw [State.getV_flagThenResult_result, if_neg hx, toNat_shiftLeft_one]
  case flag => rw [State.getV_flagThenResult_flag s _ _ hx, toNat_shlFlagOf]
  case resultOfFlag =>
    subst hx
    rw [State.getV_flagThenResult_result, if_pos rfl, toNat_shlFlagOf_shiftLeft_one, toNat_shlFlagOf]

/-- SHL under SHIFT_SOURCE = VY doubles Vy modulo 256, and its flag is the bit SHL_FLAG names. -/
theorem exec_shl_doubles_vy {s : State} (x y : Reg) (h : s.params.shiftSource = .vy) :
    ∃ t, exec (.shl x y) s = .next t ∧ (t.getV x).toNat = (2 * (s.getV y).toNat) % 256 ∧
      (x ≠ regF → (t.getV regF).toNat =
        if s.params.shlFlag = .lsb then (s.getV y).toNat % 2 else (s.getV y).toNat / 128) ∧
      SameRegsBut [x, regF] s t ∧ t.pc = s.pc + 2 ∧ SameOutsideRegs s t := by
  refine ⟨_, exec_shl_of_vy x y h, ?double, fun hx => ?flag, s.flagThenResult_frame x _ _⟩
  case double => rw [State.getV_flagThenResult_result, toNat_shiftLeft_one]
  case flag => rw [State.getV_flagThenResult_flag s _ _ hx, toNat_shlFlagOf]

/-- Settles O30: under VY flag and result are both computed from the Vy before the write; SHL's flag is the low bit when SHL_FLAG = lsb. -/
theorem shiftsReadVyUnderTheQuirk : Obligations.ShiftsReadVyUnderTheQuirk := by
  refine ⟨rfl, fun s x y h => ⟨?shr, fun hlsb => ?shl⟩⟩
  case shr =>
    refine ⟨_, exec_shr_of_vy x y h, ?half, fun hx => ?flag, s.flagThenResult_frame x _ _⟩
    case half => rw [State.getV_flagThenResult_result, toNat_ushiftRight_one]
    case flag => rw [State.getV_flagThenResult_flag s _ _ hx, toNat_shrFlag]
  case shl => simpa only [if_pos hlsb] using exec_shl_doubles_vy x y h

/-- Settles O31: SHL's flag under VY is bit 7 when SHL_FLAG = msb. -/
theorem shiftLeftOfVyWithTheMsbFlag : Obligations.ShiftLeftOfVyWithTheMsbFlag := by
  intro s x y h hmsb
  have hne : s.params.shlFlag ≠ .lsb := by simp [hmsb]
  simpa only [if_neg hne] using exec_shl_doubles_vy x y h

/-! ### VF as the destination -/

/-- Settles O32: the clauses about the destination of O26 to O29, taken at x = F. -/
theorem resultWinsInTheFlagRegister : Obligations.ResultWinsInTheFlagRegister := by
  intro s y hvx hlsb
  obtain ⟨t1, hadd, hsum, -⟩ := addRegistersSumAndCarry s regF y
  obtain ⟨⟨t2, hsub, hdiff, -⟩, ⟨t3, hsubn, hrev, -⟩⟩ := subtractionsDifferenceAndNoBorrow s regF y
  obtain ⟨t4, hshr, -, hhalf, -⟩ := shiftRightHalvesVx s regF y hvx
  obtain ⟨t5, hshl, -, hdouble, -⟩ := shiftLeftDoublesVx s regF y hvx
  rw [if_pos hlsb] at hdouble
  exact ⟨t1, t2, t3, t4, t5, hadd, hsub, hsubn, hshr, hshl, hsum, hdiff, hrev, hhalf rfl, hdouble rfl⟩

/-! ### The random byte -/

/-- Settles O33: a mask clears the bits outside it, whatever the free byte, and the draw count moves on by one. -/
theorem randomByteIsMasked : Obligations.RandomByteIsMasked := by
  intro s x kk
  have hbyte : (completed s (.rnd x kk)).getV x = Config.randomByte s.draws &&& kk := s.getV_setV_same x _
  refine ⟨_, exec_of_not_faultCondition (i := .rnd x kk) not_false, hbyte, ?outside, fun hzero => ?zero, rfl,
    completed_regs s (.rnd x kk), rfl, fun _ => rfl, ⟨rfl, rfl, rfl, rfl⟩, ⟨rfl, rfl⟩, rfl,
    completed_environment s (.rnd x kk)⟩
  case outside =>
    rw [hbyte, BitVec.and_assoc, BitVec.and_not_self]
    exact BitVec.and_zero
  case zero =>
    rw [hbyte, hzero]
    exact BitVec.and_zero

end Sys2Proof.Machine
end

section
/-! SUPPORT. The index-register and memory instructions: the decimal digits by number, what a completed store and a completed load leave in memory,
the registers and I, and the proofs of O35 to O40. -/

namespace Sys2Proof.Machine

/-! ### I alone -/

/-- Settles O35: LD I has no check to fail, and the address field keeps its value when zero-extended. -/
theorem loadIndexWritesIAlone : Obligations.LoadIndexWritesIAlone := by
  intro s nnn
  exact ⟨_, exec_of_not_faultCondition (i := .ldI nnn) not_false, rfl, toNat_zext12 nnn⟩

/-- The sum of ADD I is taken modulo 2^16 (92_eei_decisions.md D1). -/
theorem toNat_add_zext8 (w : Word) (b : Byte) : (w + zext8 b).toNat = (w.toNat + b.toNat) % 65536 := by
  rw [BitVec.toNat_add, toNat_zext8]

/-- Five times a byte fits 16 bits, so the glyph address does not wrap (92_eei_decisions.md D29). -/
theorem toNat_zext8_mul_five (b : Byte) : (zext8 b * 5).toNat = b.toNat * 5 := by
  have hfits : (zext8 b).toNat * 5 < 2 ^ 16 := by
    rw [toNat_zext8]
    omega
  exact (BitVec.toNat_mul_of_lt hfits).trans (congrArg (· * 5) (toNat_zext8 b))

/-- Settles O36: ADD I and LD F have no check to fail; the one sum wraps at 2^16, the other product fits. -/
theorem indexArithmeticWritesIAlone : Obligations.IndexArithmeticWritesIAlone := by
  intro s x
  exact ⟨⟨_, exec_of_not_faultCondition (i := .addI x) not_false, rfl, toNat_add_zext8 s.index (s.getV x)⟩,
    ⟨_, exec_of_not_faultCondition (i := .ldF x) not_false, rfl, toNat_zext8_mul_five (s.getV x)⟩⟩

/-- I moved on within Mem does not wrap (20_memory.md R68). -/
theorem State.toNat_index_advanceIndex {s : State} {n : Nat} (h : s.base + n ≤ 0x1000) :
    (s.advanceIndex n).index.toNat = s.index.toNat + n := by
  have hbase : s.index.toNat + n ≤ 0x1000 := h
  rw [State.advanceIndex_index, BitVec.toNat_add, BitVec.toNat_ofNat]
  omega

/-! ### LD B -/

/-- The decimal digits by number: none is above the byte itself, so each fits a byte. -/
theorem decimalDigits_map_toNat (b : Byte) :
    (decimalDigits b).map BitVec.toNat = [b.toNat / 100, b.toNat / 10 % 10, b.toNat % 10] := by
  have hfits (d : Nat) (hd : d ≤ b.toNat) : (BitVec.ofNat 8 d).toNat = d :=
    (BitVec.toNat_ofNat d 8).trans (Nat.mod_eq_of_lt (hd.trans_lt b.isLt))
  have htens : b.toNat / 10 % 10 ≤ b.toNat := (Nat.mod_le _ _).trans (Nat.div_le_self _ _)
  simp only [decimalDigits, List.map_cons, List.map_nil, hfits _ (Nat.div_le_self _ _), hfits _ htens, hfits _ (Nat.mod_le _ _)]

/-- LD B puts the k-th decimal digit of Vx at I + k (42_index_memory.md R163). -/
theorem readByte_completed_ldB {s : State} (x : Reg) (h : Memory.wf s.params.font s.mem) {k : Nat} (hk : k < 3) :
    ((completed s (.ldB x)).readByte (s.base + k)).toNat =
      [(s.getV x).toNat / 100, (s.getV x).toNat / 10 % 10, (s.getV x).toNat % 10][k] := by
  have hstored : (completed s (.ldB x)).readByte (s.base + k) = (decimalDigits (s.getV x))[k] :=
    State.readByte_storeBytes_inside s.base (decimalDigits (s.getV x)) h hk
  simp only [← decimalDigits_map_toNat, List.getElem_map]
  exact congrArg BitVec.toNat hstored

/-- Settles O37: the digits read back where they were stored; a range that is not storable latches its lowest failing address. -/
theorem decimalDigitsAreStored : Obligations.DecimalDigitsAreStored := by
  constructor
  · intro s x hwf hstore
    exact ⟨_, exec_of_not_faultCondition (i := .ldB x) (not_not.mpr hstore),
      readByte_completed_ldB x hwf (k := 0) (by decide), readByte_completed_ldB x hwf (k := 1) (by decide),
      readByte_completed_ldB x hwf (k := 2) (by decide),
      fun _ ha => s.readByte_storeBytes_outside s.base (decimalDigits (s.getV x)) ha, rfl⟩
  · intro s x hfail
    exact ⟨_, rfl, rfl, rfl, exec_of_execFault (i := .ldB x) (firstFault_write_of_not (by decide) hfail)⟩

/-! ### LD [I],Vx and LD Vx,[I] -/

/-- LD [I],Vx changes no byte outside I to I + x (42_index_memory.md R164). -/
theorem sameMemOutside_completed_storeRegs (s : State) (x : Reg) :
    SameMemOutside s.base (x.toNat + 1) s (completed s (.storeRegs x)) := fun _ ha =>
  s.readByte_storeBytes_outside s.base (s.regBytes x) ((s.regBytes_length x).symm ▸ ha)

/-- Settles O38: the registers read back where they were stored and I moves on without wrapping; a range that is not storable latches its lowest
failing address. -/
theorem registersAreStoredFromI : Obligations.RegistersAreStoredFromI := by
  constructor
  · intro s x hwf hstore
    exact ⟨_, exec_of_not_faultCondition (i := .storeRegs x) (not_not.mpr hstore),
      fun _ hr => readByte_completed_storeRegs hwf hr, sameMemOutside_completed_storeRegs s x,
      State.toNat_index_advanceIndex hstore.1, rfl⟩
  · intro s x hfail
    exact ⟨_, rfl, rfl, rfl, exec_of_execFault (i := .storeRegs x) (firstFault_write_of_not (Nat.succ_pos _) hfail)⟩

/-- LD Vx,[I] puts the byte at I + r in V[r] for r up to x, and keeps the registers above (42_index_memory.md R165). -/
theorem getV_completed_loadRegs (s : State) (x r : Reg) :
    (completed s (.loadRegs x)).getV r = if r.toNat ≤ x.toNat then s.readByte (s.base + r.toNat) else s.getV r := by
  simp only [← Nat.lt_succ_iff]
  exact s.getV_loadRange s.base (rangeCount x) x.isLt r

/-- Settles O39: the registers hold the bytes of the range and I moves on without wrapping; a range that is not readable latches its lowest address
above 0xFFF. -/
theorem registersAreLoadedFromI : Obligations.RegistersAreLoadedFromI := by
  constructor
  · intro s x hread
    have hend : s.base + rangeCount x ≤ 0x1000 := hread.resolve_left (Nat.succ_ne_zero _)
    refine ⟨_, exec_of_not_faultCondition (i := .loadRegs x) (not_not.mpr hread), getV_completed_loadRegs s x, ?index,
      ?memory, ?frame⟩
    case index =>
      rw [completed_loadRegs]
      exact State.toNat_index_advanceIndex hend
    case memory =>
      exact State.readByte_congr (completed_mem s nofun nofun) (completed_params s _)
    case frame => rw [completed_loadRegs]
  · intro s x hfail
    exact exec_of_execFault (i := .loadRegs x) (firstFault_read_of_not hfail)

/-- Settles O40: a storable range is readable, so the load completes, and the bytes it reads are the registers stored. -/
theorem storeThenLoadRoundTrips : Obligations.StoreThenLoadRoundTrips := by
  intro s t u x hwf hstore hexec hmem hparams hindex
  have hbase : u.base = s.base := congrArg BitVec.toNat hindex
  have ht : t = completed s (.storeRegs x) :=
    Host.Outcome.next.inj (hexec.symm.trans (exec_of_not_faultCondition (i := .storeRegs x) (not_not.mpr hstore)))
  have hread : Readable u.base (x.toNat + 1) := .inr (hbase ▸ hstore.1)
  refine ⟨_, exec_of_not_faultCondition (i := .loadRegs x) (not_not.mpr hread), fun r hr => ?_⟩
  calc (completed u (.loadRegs x)).getV r
      = u.readByte (u.base + r.toNat) := by rw [getV_completed_loadRegs, if_pos hr]
    _ = t.readByte (s.base + r.toNat) := by rw [State.readByte_congr hmem hparams, hbase]
    _ = s.getV r := ht ▸ readByte_completed_storeRegs hwf hr

end Sys2Proof.Machine
end

section
/-! SUPPORT. The display instructions: what a completed DRW leaves in each cell and in VF, and the proofs of O43 to O46. What a sprite does to a frame
is `drawSprite_spec`; the lemmas here say it of the state. -/

namespace Sys2Proof.Machine

/-! ### CLS -/

/-- Settles O43: CLS has no check to fail, and the frame it leaves and sends is 0. -/
theorem clsBlanksAndEmitsOneFrame : Obligations.ClsBlanksAndEmitsOneFrame := by
  intro s
  exact ⟨_, exec_of_not_faultCondition (i := .cls) not_false, fun _ _ => BitVec.getLsbD_zero, rfl, rfl⟩

/-! ### DRW -/

theorem flagOf_eq_zero_or_one (c : Bool) : flagOf c = 0 ∨ flagOf c = 1 := by
  cases c
  · exact .inl flagOf_false
  · exact .inr flagOf_true

/-- A sprite has at most 15 rows, so no two of its rows wrap onto the same one. -/
theorem toNat_nibble_le_height (n : Nibble) : n.toNat ≤ 32 :=
  n.isLt.le.trans (by decide)

section
variable (s : State) (x y : Reg) (n : Nibble)

/-- DRW toggles exactly the cells its sprite covers (43_display.md R181). -/
theorem getLsbD_fb_completed_drw {px py : Nat} (hx : px < 64) (hy : py < 32) :
    (completed s (.drw x y n)).fb.getLsbD (px + 64 * py) =
      (s.fb.getLsbD (px + 64 * py) ^^ decide (SpriteCovers s x y n px py)) :=
  (drawSprite_spec s.readByte s.base _ _ s.fb n.toNat (toNat_nibble_le_height n)).1 px py hx hy

/-- The flag is written last, so VF holds the collision even where it gave a coordinate (92_eei_decisions.md D18). -/
theorem getV_regF_completed_drw :
    (completed s (.drw x y n)).getV regF =
      flagOf (drawSprite s.readByte s.base (s.getV x).toNat (s.getV y).toNat n.toNat s.fb).2 :=
  State.getV_setV_same _ _ _

/-- DRW sets VF to 1 exactly when a covered cell was 1 (43_display.md R181). -/
theorem getV_regF_completed_drw_eq_one_iff :
    (completed s (.drw x y n)).getV regF = 1 ↔
      ∃ px py, px < 64 ∧ py < 32 ∧ SpriteCovers s x y n px py ∧ s.fb.getLsbD (px + 64 * py) = true := by
  rw [getV_regF_completed_drw, flagOf_eq_one]
  exact (drawSprite_spec s.readByte s.base _ _ s.fb n.toNat (toNat_nibble_le_height n)).2

theorem sameMem_completed_drw : SameMem s (completed s (.drw x y n)) :=
  State.readByte_congr (completed_mem s nofun nofun) (completed_params s _)

end

/-- Settles O44: a readable range passes DRW's check, and the completed state has the cells and the flag of the sprite; any other range latches its
lowest address above 0xFFF. -/
theorem drawTogglesTheCoveredCells : Obligations.DrawTogglesTheCoveredCells := by
  constructor
  · intro s x y n hread
    refine ⟨_, exec_of_not_faultCondition (i := .drw x y n) (not_not.mpr hread), fun _ _ => ?cells,
      getV_regF_completed_drw_eq_one_iff s x y n, ?flag, completed_regs s (.drw x y n), sameMem_completed_drw s x y n,
      rfl, rfl⟩
    case cells => exact getLsbD_fb_completed_drw s x y n
    case flag =>
      rw [getV_regF_completed_drw]
      exact flagOf_eq_zero_or_one _
  · intro s x y n hfail
    exact exec_of_execFault (i := .drw x y n) (firstFault_read_of_not hfail)

/-! ### The same sprite drawn again -/

/-- Two frames are equal when every cell of 64 columns and 32 rows is: each bit is the cell of its column and row (10_state.md R30). -/
theorem frame_ext {a b : Frame}
    (h : ∀ px py, px < 64 → py < 32 → a.getLsbD (px + 64 * py) = b.getLsbD (px + 64 * py)) : a = b := by
  refine BitVec.eq_of_getLsbD_eq fun k hk => ?_
  have hcell := h (k % 64) (k / 64) (Nat.mod_lt _ (by decide)) (Nat.div_lt_of_lt_mul hk)
  rwa [Nat.mod_add_div] at hcell

section
variable {s : State} {x y : Reg} {n : Nibble}

/-- Where VF gives no coordinate, DRW leaves its own sprite over the same cells. -/
theorem spriteCovers_completed_drw (hx : x ≠ regF) (hy : y ≠ regF) (px py : Nat) :
    SpriteCovers (completed s (.drw x y n)) x y n px py ↔ SpriteCovers s x y n px py := by
  have hregs : SameRegsBut [regF] s (completed s (.drw x y n)) := completed_regs s (.drw x y n)
  have hbase : (completed s (.drw x y n)).base = s.base := rfl
  simp only [SpriteCovers, hregs x (by simpa using hx), hregs y (by simpa using hy), hbase, sameMem_completed_drw s x y n _]

/-- A second DRW toggles back every cell the first one toggled. -/
theorem fb_completed_drw_twice (hx : x ≠ regF) (hy : y ≠ regF) :
    (completed (completed s (.drw x y n)) (.drw x y n)).fb = s.fb := by
  refine frame_ext fun px py hpx hpy => ?_
  simp only [getLsbD_fb_completed_drw _ x y n hpx hpy, spriteCovers_completed_drw hx hy]
  rw [Bool.xor_assoc, Bool.xor_self, Bool.xor_false]

/-- A covered cell is 1 after DRW exactly when it was 0 before. -/
theorem getLsbD_fb_completed_drw_of_covers {px py : Nat} (hpx : px < 64) (hpy : py < 32)
    (h : SpriteCovers s x y n px py) :
    (completed s (.drw x y n)).fb.getLsbD (px + 64 * py) = true ↔ s.fb.getLsbD (px + 64 * py) = false := by
  rw [getLsbD_fb_completed_drw s x y n hpx hpy, decide_eq_true h, Bool.xor_true, Bool.not_eq_true']

end

/-- Settles O45: the second draw meets the same sprite over the frame with its cells toggled, so it toggles them back and collides where a covered
cell was 0. -/
theorem drawTwiceRestoresTheFrame : Obligations.DrawTwiceRestoresTheFrame := by
  intro s x y n hread hx hy
  refine ⟨_, _, exec_of_not_faultCondition (i := .drw x y n) (not_not.mpr hread),
    exec_of_not_faultCondition (i := .drw x y n) (not_not.mpr hread), fb_completed_drw_twice hx hy, ?_⟩
  rw [getV_regF_completed_drw_eq_one_iff]
  refine exists₂_congr fun px py => and_congr_right fun hpx => and_congr_right fun hpy => ?_
  rw [spriteCovers_completed_drw hx hy]
  exact and_congr_right (getLsbD_fb_completed_drw_of_covers hpx hpy)

/-! ### The frame events -/

/-- An instruction that answers a state when its checks pass answers its completed state. -/
theorem eq_completed_of_exec {i : Instr} {s t : State} (hok : ¬ faultCondition s i) (h : exec i s = .next t) :
    t = completed s i :=
  Host.Outcome.next.inj (h.symm.trans (exec_of_not_faultCondition hok))

/-- No instruction but CLS and DRW sends anything, whether it completes, holds or faults (43_display.md R183). -/
theorem exec_outputs {i : Instr} {s t : State} (h : exec i s = .next t) (hcls : i ≠ .cls)
    (hdrw : ∀ x y n, i ≠ .drw x y n) : t.outputs = s.outputs := by
  obtain ⟨-, -, -, hdisplay, -⟩ := eachPartChangesOnlyWhereNamed i s t h
  exact (hdisplay hcls hdrw).2

/-- DRW sends the frame it leaves exactly when its rows are readable; a draw that faults sends nothing (43_display.md R183). -/
theorem exec_drw_outputs {s t : State} {x y : Reg} {n : Nibble} (h : exec (.drw x y n) s = .next t) :
    if Readable s.base n.toNat then t.outputs = .frame t.fb :: s.outputs else t.outputs = s.outputs := by
  split
  · next hread =>
    rw [eq_completed_of_exec (i := .drw x y n) (not_not.mpr hread) h]
    rfl
  · next hfail =>
    have hfault := exec_of_execFault (i := .drw x y n) (firstFault_read_of_not hfail)
    rw [Host.Outcome.next.inj (h.symm.trans hfault)]

/-- Settles O46: CLS and a completed DRW send the frame they leave, every other instruction keeps the outputs, and so does stop. -/
theorem frameEventsComeFromClsAndDrwAlone : Obligations.FrameEventsComeFromClsAndDrwAlone := by
  constructor
  · intro i s t h
    cases i with
    | cls =>
      rw [eq_completed_of_exec (i := .cls) not_false h]
      rfl
    | drw x y n => exact exec_drw_outputs h
    | _ => exact exec_outputs h nofun nofun
  · intro s t rest hinputs hstep
    rw [step_of_event hinputs] at hstep
    obtain rfl := Host.Outcome.next.inj hstep
    exact ⟨rfl, rfl⟩

end Sys2Proof.Machine
end

section
/-! SUPPORT. The keyboard and timer instructions: the key skips in whole-state form, the hold and the load of LD Vx,K, the status output's predicate
AwaitingKey, and the proofs of O47 to O50. -/

namespace Sys2Proof.Machine

/-! ### Key skips -/

/-- A skip on the held key goes four on when its code is the whole register, else two (44_keyboard_timers.md R200). -/
theorem State.skipIf_keyIs (s : State) (x : Reg) :
    s.skipIf (s.keyIs x) =
      { s with pc := if s.key.map BitVec.toNat = some (s.getV x).toNat then s.pc + 4 else s.pc + 2 } := by
  simp only [State.skipIf, State.keyIs_iff]

/-- A skip on its complement goes two on where the other goes four (44_keyboard_timers.md R201). -/
theorem State.skipIf_not_keyIs (s : State) (x : Reg) :
    s.skipIf (!s.keyIs x) =
      { s with pc := if s.key.map BitVec.toNat = some (s.getV x).toNat then s.pc + 2 else s.pc + 4 } := by
  simp only [State.skipIf, Bool.not_eq_true', ← Bool.not_eq_true, ite_not, State.keyIs_iff]

/-- Settles O47: neither skip has a check to fail, and both decide by the same comparison of the key with the whole register. -/
theorem keySkipsAreComplements : Obligations.KeySkipsAreComplements := by
  intro s x
  constructor
  · rw [exec_of_not_faultCondition (i := .skp x) not_false, completed, State.skipIf_keyIs]
  · rw [exec_of_not_faultCondition (i := .sknp x) not_false, completed, State.skipIf_not_keyIs]

/-! ### The wait for a key -/

/-- With no key held LD Vx,K holds (44_keyboard_timers.md R202). -/
theorem exec_ldVxK_of_key_none {s : State} (x : Reg) (h : s.key = none) : exec (.ldVxK x) s = .next s := by
  rw [exec_of_not_faultCondition (i := .ldVxK x) not_false, completed, h, Option.elim_none]

/-- With a key held LD Vx,K loads its code and goes on (44_keyboard_timers.md R202). -/
theorem exec_ldVxK_of_key_some {s : State} {k : Nibble} (x : Reg) (h : s.key = some k) :
    exec (.ldVxK x) s = .next (s.setV x (zextKey k)).advance := by
  rw [exec_of_not_faultCondition (i := .ldVxK x) not_false, completed, h, Option.elim_some]

/-- Settles O48: the latch decides between the hold and the load, and the load is one register written. -/
theorem waitForKeyHoldsOrLoads : Obligations.WaitForKeyHoldsOrLoads := by
  constructor
  · intro s x h
    exact exec_ldVxK_of_key_none x h
  · intro s x k h
    obtain ⟨hvalue, hframe⟩ := s.setV_advance_spec x (zextKey k)
    refine ⟨_, exec_ldVxK_of_key_some x h, ?_, hframe⟩
    rw [hvalue, toNat_zextKey]

/-! ### AwaitingKey -/

/-- LD Vx,K is the one instruction that waits for a key. -/
theorem waitsForKey_eq_true {i : Instr} : waitsForKey i = true ↔ ∃ x, i = .ldVxK x := by
  cases i with
  | ldVxK x => exact iff_of_true rfl ⟨x, rfl⟩
  | _ => exact iff_of_false nofun nofun

/-- AwaitingKey asks for a tick that takes a step, no key, and a fetched opcode that waits for one (44_keyboard_timers.md R202 (a)). -/
theorem awaitingKey_eq_true {s : State} :
    awaitingKey s = true ↔ s.runState = .running ∧ s.fault = none ∧ s.key = none ∧
      ∃ w x, s.fetch = some w ∧ decodeOpcode w = .ldVxK x := by
  simp only [awaitingKey, Bool.and_eq_true, State.ticking_eq_true, Option.isNone_iff_eq_none, and_assoc]
  cases hw : s.fetch with
  | none => simp
  | some w => simp [waitsForKey_eq_true]

/-- Settles O49: AwaitingKey names all that makes the next instruction tick an LD Vx,K with no key, which holds. -/
theorem awaitingKeyIsTheHold : Obligations.AwaitingKeyIsTheHold := by
  intro s
  refine ⟨awaitingKey_eq_true, fun hawait hi => ?_⟩
  obtain ⟨hr, hf, hkey, w, x, hw, hdec⟩ := awaitingKey_eq_true.mp hawait
  rw [step_of_fetch hi hr hf hw, hdec]
  exact exec_ldVxK_of_key_none (s := { s with inputs := s.inputs.tail }) x hkey

/-! ### Timers -/

/-- sound_on is the level of ST, and a byte is above 0 exactly when it is not 0 (60_exceptions.md R236). -/
theorem soundOn_eq_true {s : State} : soundOn s = true ↔ s.st ≠ 0 := by
  rw [soundOn, decide_eq_true_iff, Nat.pos_iff_ne_zero]
  exact BitVec.toNat_ne_iff_ne (y := 0)

/-- Settles O50: none of the three has a check to fail; the read writes one register, and each set writes one timer. -/
theorem timersAreReadAndSet : Obligations.TimersAreReadAndSet := by
  intro s x
  exact ⟨⟨_, exec_of_not_faultCondition (i := .ldVxDT x) not_false, s.setV_advance_spec x s.dt⟩,
    exec_of_not_faultCondition (i := .ldDTVx x) not_false,
    ⟨_, exec_of_not_faultCondition (i := .ldSTVx x) not_false, rfl, soundOn_eq_true⟩⟩

end Sys2Proof.Machine
end

section
/-! SUPPORT. Every step answers; what one step does to the fault latch and to the instruction unit, said once by the agent that moves; and the proofs
of O6 and O51 to O53. -/

namespace Sys2Proof.Machine

/-! ### Every step answers -/

/-- Every instruction answers a next state, whether its checks pass or fail (60_exceptions.md R227). -/
theorem exists_exec_eq_next (i : Instr) (s : State) : ∃ t, exec i s = .next t := by
  rw [exec_eq_checked]
  cases execFault s i with
  | none => exact ⟨_, rfl⟩
  | some c => exact ⟨_, rfl⟩

theorem exists_instrTick_eq_next (s : State) : ∃ t, instrTick s = .next t := by
  cases ht : s.ticking with
  | false => exact ⟨_, instrTick_of_not_ticking ht⟩
  | true =>
    rw [instrTick_of_ticking ht]
    cases s.fetch with
    | none => exact ⟨_, rfl⟩
    | some w => exact exists_exec_eq_next (decodeOpcode w) s

theorem exists_deliver_eq_next (e : Event) (s : State) : ∃ t, deliver e s = .next t := by
  cases e with
  | iclk => exact exists_instrTick_eq_next s
  | _ => exact ⟨_, rfl⟩

/-- Settles O6: the step delivers one event, and every delivery answers a next state. -/
theorem everyStepAnswersANextState : Obligations.EveryStepAnswersANextState := by
  intro s
  rw [step_eq_deliver]
  exact exists_deliver_eq_next _ _

/-! ### The instruction unit latches -/

/-- Settles O52: a completed instruction keeps the empty latch and its checks passed; a latched record is that of a failing check. -/
theorem onlyTheListedConditionsFault : Obligations.OnlyTheListedConditionsFault := by
  intro i s t hs h
  obtain ⟨hnone, rfl⟩ | ⟨c, hc, rfl⟩ := exec_cases h
  · have hempty : (completed s i).fault = none := (completed_fault s i).trans hs
    exact iff_of_false (not_not.mpr hempty) ((execFault_eq_none_iff s i).mp hnone)
  · have hcond : faultCondition s i := by
      by_contra hok
      simp [(execFault_eq_none_iff s i).mpr hok] at hc
    exact iff_of_true (Option.some_ne_none _) hcond

/-- An instruction that latches a fault changes the latch alone (60_exceptions.md R230). -/
theorem eq_latched_of_exec {i : Instr} {s t : State} (hs : s.fault = none) (h : exec i s = .next t) (ht : t.fault ≠ none) :
    ∃ c, t = { s with fault := some ⟨c, s.pc, some (opcodeFor i)⟩ } := by
  obtain ⟨-, rfl⟩ | ⟨c, -, rfl⟩ := exec_cases h
  · exact absurd ((completed_fault s i).trans hs) ht
  · exact ⟨c, rfl⟩

/-- An instruction tick that latches a fault changes the latch alone, and records what the fetch gave: the encoder gives the fetched opcode back
(assumption 15). -/
theorem eq_latched_of_instrTick {s t : State} (hs : s.fault = none) (h : instrTick s = .next t) (ht : t.fault ≠ none) :
    ∃ c, t = { s with fault := some ⟨c, s.pc, s.fetch⟩ } := by
  cases htick : s.ticking with
  | false =>
    rw [instrTick_of_not_ticking htick] at h
    exact absurd (Host.Outcome.next.inj h ▸ hs) ht
  | true =>
    rw [instrTick_of_ticking htick] at h
    cases hw : s.fetch with
    | none =>
      rw [hw] at h
      exact ⟨.fetchOutOfRange, (Host.Outcome.next.inj h).symm⟩
    | some w =>
      rw [hw] at h
      obtain ⟨c, hc⟩ := eq_latched_of_exec hs h ht
      have hopcode : opcodeFor (decodeOpcode w) = w := (encodeOfDecodeIsTheOpcode w).2
      exact ⟨c, hopcode ▸ hc⟩

/-! ### The timer unit and the host leave the instruction unit alone -/

/-- The latch and what the instruction unit owns are unchanged: V, PC, I, the stack, memory, FB, the draw count (60_exceptions.md R231). -/
abbrev SameUnit (s t : State) : Prop :=
  t.fault = s.fault ∧ t.v = s.v ∧ t.pc = s.pc ∧ t.index = s.index ∧ t.stack = s.stack ∧ t.mem = s.mem ∧ t.fb = s.fb ∧
    t.draws = s.draws

theorem SameUnit.refl (s : State) : SameUnit s s := ⟨rfl, rfl, rfl, rfl, rfl, rfl, rfl, rfl⟩

theorem timerTick_sameUnit (s : State) : SameUnit s (timerTick s) := by
  unfold timerTick
  split <;> exact SameUnit.refl s

theorem pressKey_sameUnit (k : Nat) (s : State) : SameUnit s (pressKey k s) := by
  unfold pressKey
  split <;> exact SameUnit.refl s

theorem pause_sameUnit (s : State) : SameUnit s (pause s) := by
  unfold pause
  split <;> exact SameUnit.refl s

/-- A loadRom is refused and leaves the instruction unit alone, or is accepted and clears the latch (60_exceptions.md R226). -/
theorem loadRom_sameUnit_or (bytes : List Byte) (autoStart : Bool) (s : State) :
    SameUnit s (loadRom bytes autoStart s) ∨ bytes.length ≤ 3584 ∧ (loadRom bytes autoStart s).fault = none := by
  unfold loadRom
  split
  · next hle => exact .inr ⟨hle, rfl⟩
  · exact .inl (SameUnit.refl s)

/-- The events that clear the latch: stop and an accepted loadRom (60_exceptions.md R231). -/
def Event.ClearsLatch : Event → Prop
  | .stop => True
  | .loadRom bytes _ => bytes.length ≤ 3584
  | _ => False

/-- An event that is no instruction tick leaves the instruction unit alone, unless it is one of those that clear the latch. -/
theorem deliver_sameUnit_or {e : Event} {s t : State} (he : e ≠ .iclk) (h : deliver e s = .next t) :
    SameUnit s t ∨ e.ClearsLatch ∧ t.fault = none := by
  cases e with
  | iclk => exact absurd rfl he
  | tclk => exact .inl (Host.Outcome.next.inj h ▸ timerTick_sameUnit s)
  | pressKey k => exact .inl (Host.Outcome.next.inj h ▸ pressKey_sameUnit k s)
  | pause => exact .inl (Host.Outcome.next.inj h ▸ pause_sameUnit s)
  | setClockRate hz => exact .inl (Host.Outcome.next.inj h ▸ pause_sameUnit s)
  | releaseKey | start | observeFrames => exact .inl (Host.Outcome.next.inj h ▸ SameUnit.refl s)
  | stop => exact .inr ⟨trivial, Host.Outcome.next.inj h ▸ rfl⟩
  | loadRom bytes autoStart => exact Host.Outcome.next.inj h ▸ loadRom_sameUnit_or bytes autoStart s

/-! ### The step -/

/-- What moves in a step: the instruction unit, by default or on a listed tick, or another agent on the event listed first (assumption 1). -/
theorem step_cases {s t : State} (h : step s = .next t) :
    (s.inputs = [] ∨ s.inputs.head? = some .iclk) ∧ instrTick { s with inputs := s.inputs.tail } = .next t ∨
      ∃ e, e ≠ .iclk ∧ s.inputs.head? = some e ∧ deliver e { s with inputs := s.inputs.tail } = .next t := by
  by_cases hi : s.inputs = [] ∨ s.inputs.head? = some .iclk
  · exact .inl ⟨hi, step_of_tick hi ▸ h⟩
  · obtain ⟨hne, hiclk⟩ := not_or.mp hi
    obtain ⟨e, rest, hcons⟩ := List.exists_cons_of_ne_nil hne
    rw [step_of_event hcons] at h
    rw [hcons] at hiclk ⊢
    exact .inr ⟨e, fun he => hiclk (congrArg some he), rfl, h⟩

/-- Settles O51: only the instruction unit latches, and its tick then changes the latch alone. -/
theorem faultsArePrecise : Obligations.FaultsArePrecise := by
  intro s t hs hstep ht
  obtain ⟨-, htick⟩ | ⟨e, he, -, hdeliver⟩ := step_cases hstep
  · obtain ⟨c, rfl⟩ := eq_latched_of_instrTick (s := { s with inputs := s.inputs.tail }) hs htick ht
    exact ⟨rfl, ⟨c, s.pc, s.fetch⟩, rfl, rfl, rfl, rfl⟩
  · obtain ⟨hsame, -⟩ | ⟨-, hclear⟩ := deliver_sameUnit_or he hdeliver
    · exact absurd (hsame.trans hs) ht
    · exact absurd hclear ht

/-- With a fault latched a step whose next event is an instruction tick moves the list on and does nothing else (60_exceptions.md R231). -/
theorem step_of_latched_tick {s : State} (hf : s.fault ≠ none) (hi : s.inputs = [] ∨ s.inputs.head? = some .iclk) :
    step s = .next { s with inputs := s.inputs.tail } := by
  have hidle : s.ticking = false := Bool.eq_false_iff.mpr fun h => hf ((State.ticking_eq_true s).mp h).2
  exact step_of_idle_tick hi hidle

/-- Settles O53: with a fault latched an instruction tick is idle, and the other events but stop and an accepted loadRom leave the unit alone. -/
theorem latchedFaultFreezesTheUnit : Obligations.LatchedFaultFreezesTheUnit := by
  refine ⟨fun s t r hs hstop hrom hstep => ?_, fun s => step_of_latched_tick⟩
  suffices hsame : SameUnit s t from hs ▸ hsame
  obtain ⟨hi, -⟩ | ⟨e, he, hhead, hdeliver⟩ := step_cases hstep
  · rw [step_of_latched_tick (by simp [hs]) hi] at hstep
    exact Host.Outcome.next.inj hstep ▸ SameUnit.refl s
  · obtain hsame | ⟨hclears, -⟩ := deliver_sameUnit_or he hdeliver
    · exact hsame
    · cases e with
      | stop => exact absurd hhead hstop
      | loadRom bytes a => exact absurd hclears (Nat.not_le_of_lt (hrom bytes a hhead))
      | _ => exact hclears.elim

end Sys2Proof.Machine
end

section
/-! SUPPORT. The timer tick and the key events in whole-state form, k timer ticks in a row, and the proofs of O54 to O56. -/

namespace Sys2Proof.Machine

/-! ### Timer ticks -/

@[simp] theorem toNat_countDown (b : Byte) : (countDown b).toNat = b.toNat - 1 := by
  unfold countDown
  split
  · next h => simp [h]
  · next h => bv_omega

theorem timerTick_of_running {s : State} (h : s.runState = .running) :
    timerTick s = { s with dt := countDown s.dt, st := countDown s.st } := by
  simp only [timerTick, h]

theorem timerTick_of_not_running {s : State} (h : s.runState ≠ .running) : timerTick s = s := by
  cases hr : s.runState with
  | running => exact absurd hr h
  | paused | stopped => simp only [timerTick, hr]

/-- A step with a timer tick listed first lowers both counters while Running (60_exceptions.md R234). -/
theorem step_of_running_tclk {s : State} {rest : List Event} (hi : s.inputs = .tclk :: rest) (hr : s.runState = .running) :
    step s = .next { s with dt := countDown s.dt, st := countDown s.st, inputs := rest } := by
  rw [step_of_event hi, deliver, timerTick_of_running (s := { s with inputs := rest }) hr]

/-- Settles O54: while Running both counters count down, in the other run states the tick is idle. -/
theorem timerTickCountsDown : Obligations.TimerTickCountsDown := by
  intro s rest hi
  constructor
  · intro hr
    exact ⟨_, step_of_running_tclk hi hr, toNat_countDown s.dt, toNat_countDown s.st, rfl⟩
  · intro hr
    rw [step_of_event hi, deliver, timerTick_of_not_running (s := { s with inputs := rest }) hr]

/-- A run of one step more goes on from the state the first step answers. -/
theorem core_run_succ {s t : State} (k : Nat) (h : step s = .next t) : core.run (k + 1) s = core.run k t := by
  have hstep : core.step s = .next t := h
  simp only [Host.Core.run, hstep]

/-- Settles O55, by induction on the number of ticks: the first lowers both counters by one, the rest by k from there. -/
theorem timerTicksAddUp : Obligations.TimerTicksAddUp := by
  intro k
  induction k with
  | zero =>
    intro s rest _ hi
    have hrest : s.inputs = rest := hi
    exact ⟨s, rfl, rfl, rfl, hrest ▸ rfl⟩
  | succ k ih =>
    intro s rest hr hi
    have hstep := step_of_running_tclk (rest := List.replicate k .tclk ++ rest) hi hr
    obtain ⟨t, hrun, hdt, hst, ht⟩ := ih
      { s with dt := countDown s.dt, st := countDown s.st, inputs := List.replicate k .tclk ++ rest } rest hr rfl
    rw [toNat_countDown, Nat.sub_sub, Nat.add_comm 1 k] at hdt hst
    exact ⟨t, (core_run_succ k hstep).trans hrun, hdt, hst, ht⟩

/-! ### Key events -/

/-- A key code up to 15 replaces the latch (60_exceptions.md R237). -/
theorem pressKey_of_lt {s : State} {k : Nat} (h : k < 16) :
    pressKey k s = { s with key := some (BitVec.ofFin ⟨k, h⟩) } := by
  have hcode : BitVec.ofNat 4 k = BitVec.ofFin ⟨k, h⟩ := BitVec.eq_of_toNat_eq (Nat.mod_eq_of_lt h)
  rw [pressKey, if_pos (Nat.le_of_lt_succ h), hcode]

/-- A key code above 15 is refused and changes nothing (60_exceptions.md R237). -/
theorem pressKey_of_gt {s : State} {k : Nat} (h : 15 < k) : pressKey k s = s :=
  if_neg (Nat.not_le_of_lt h)

/-- Settles O56: a press is accepted or refused by its code alone, and a release is the empty latch. -/
theorem keyEventsWriteTheLatch : Obligations.KeyEventsWriteTheLatch := by
  intro s rest k
  refine ⟨fun hi => ⟨fun hk => ?_, fun hk => ?_⟩, fun hi => ?_⟩
  · rw [step_of_event hi, deliver, pressKey_of_lt hk]
  · rw [step_of_event hi, deliver, pressKey_of_gt hk]
  · rw [step_of_event hi, deliver, releaseKey]

end Sys2Proof.Machine
end

section
/-! SUPPORT. The CPU reset, loadRom and the lifecycle commands in whole-state form, what the state after construction reads as, and the proofs of
O1 and O57 to O59 (70_reset_and_hazards.md). -/

namespace Sys2Proof.Machine

/-! ### The CPU reset and loadRom -/

/-- The CPU reset leaves every register 0 (10_state.md R37). -/
@[simp] theorem getV_resetCpu (s : State) (r : Reg) : (resetCpu s).getV r = 0 :=
  Vector.getElem_replicate _

/-- An image of at most 3584 bytes is accepted (70_reset_and_hazards.md R262). -/
theorem loadRom_of_le {bytes : List Byte} (h : bytes.length ≤ 3584) (a : Bool) (s : State) :
    loadRom bytes a s =
      { resetCpu s with mem := Memory.loaded s.mem bytes, runState := if a then .running else .paused } :=
  if_pos h

/-- A larger image is refused with InvalidRom and changes nothing else (60_exceptions.md R226). -/
theorem loadRom_of_gt {bytes : List Byte} (h : 3584 < bytes.length) (a : Bool) (s : State) :
    loadRom bytes a s = { s with outputs := .invalidRom :: s.outputs } :=
  if_neg (Nat.not_le_of_lt h)

/-- Settles O57: the state an accepted loadRom leaves has its registers from the CPU reset and its bytes from `Memory.loaded`; an oversized image
leaves the state but for the reply. -/
theorem loadRomResetsAndPlacesTheImage : Obligations.LoadRomResetsAndPlacesTheImage := by
  intro s rest bytes a hi
  constructor
  · intro hle
    have hstep : step s = .next { resetCpu { s with inputs := rest } with
        mem := Memory.loaded s.mem bytes, runState := if a then .running else .paused } := by
      rw [step_of_event hi, deliver, loadRom_of_le hle]
    exact ⟨_, hstep, getV_resetCpu s, rfl, rfl, rfl, rfl, rfl, rfl, fun _ hq => Memory.read_loaded_font _ s.mem bytes hq,
      fun _ hj => Memory.read_loaded_image _ s.mem bytes hj, fun _ hq hout => Memory.read_loaded_zero _ s.mem bytes hq hout,
      rfl, rfl, rfl, rfl, rfl, rfl, rfl⟩
  · intro hgt
    rw [step_of_event hi, deliver, loadRom_of_gt hgt]

/-! ### The state after construction -/

theorem getV_reset (r : Reg) : State.reset.getV r = 0 := Vector.getElem_replicate _

/-- No byte is listed after construction, so the font region reads FONT (10_state.md R37). -/
theorem readByte_reset_font {a : Nat} (h : a < 80) : State.reset.readByte a = State.reset.params.font[a] :=
  dif_pos h

/-- No byte is listed after construction, so the rest of Mem reads 0 (10_state.md R37). -/
theorem readByte_reset_zero {a : Nat} (h : 80 ≤ a) : State.reset.readByte a = 0 :=
  Memory.unlisted_zero _ h

/-- A start right after construction finds the word 0 at the reset vector (70_reset_and_hazards.md R261). -/
theorem fetch_start_reset : (start State.reset).fetch = some 0 := by
  have hhi : (start State.reset).readByte 0x200 = 0 := readByte_reset_zero (by decide)
  have hlo : (start State.reset).readByte 0x201 = 0 := readByte_reset_zero (by decide)
  have hfetch : (start State.reset).fetch =
      some (opcodeOf ((start State.reset).readByte 0x200) ((start State.reset).readByte 0x201)) :=
    State.fetch_of_le (by decide)
  rw [hfetch, hhi, hlo]
  rfl

theorem decodeOpcode_zero : decodeOpcode 0 = .sys 0 := by decide

/-- Settles O1: the fields stand in the definition and memory lists no byte; a tick is idle while Stopped, and after a start it runs SYS 0, which
changes nothing. -/
theorem constructionLeavesTheTabledState : Obligations.ConstructionLeavesTheTabledState := by
  refine ⟨getV_reset, rfl, rfl, rfl, rfl, rfl, fun _ => readByte_reset_font, fun _ => readByte_reset_zero,
    fun _ => BitVec.getLsbD_zero, rfl, rfl, rfl, ?idle, fetch_start_reset, decodeOpcode_zero, ?selfLoop⟩
  case idle => rw [step_of_idle_tick (.inl rfl) rfl, State.inputs_tail_of_nil rfl]
  case selfLoop =>
    rw [step_of_fetch (.inl rfl) rfl rfl fetch_start_reset, decodeOpcode_zero, State.inputs_tail_of_nil rfl]
    exact exec_of_not_faultCondition (i := .sys 0) not_false

/-! ### The other lifecycle commands -/

theorem pause_of_running {s : State} (h : s.runState = .running) : pause s = { s with runState := .paused } := by
  simp only [pause, h]

theorem pause_of_not_running {s : State} (h : s.runState ≠ .running) : pause s = s := by
  cases hr : s.runState with
  | running => exact absurd hr h
  | paused | stopped => simp only [pause, hr]

/-- pause changes run_state at most, and only from Running (70_reset_and_hazards.md R264). -/
theorem pause_eq (s : State) :
    pause s = { s with runState := if s.runState = .running then .paused else s.runState } := by
  by_cases h : s.runState = .running
  · rw [pause_of_running h, if_pos h]
  · rw [pause_of_not_running h, if_neg h]

/-- A pause and then a start ends in Running from every state (70_reset_and_hazards.md R266). -/
theorem setClockRate_eq (hz : Nat) (s : State) : setClockRate hz s = { s with runState := .running } := by
  rw [setClockRate, pause_eq, start]

/-- Settles O58: each command is delivered by its whole-state form; stop is the CPU reset with a blank frame. -/
theorem lifecycleCommandsMoveTheRunState : Obligations.LifecycleCommandsMoveTheRunState := by
  intro s rest
  refine ⟨fun hi => ?start, fun hi => ?pause, fun hi => ?stop, fun hz hi => ?setClockRate, fun hi => ?observeFrames⟩
  case start => rw [step_of_event hi, deliver, start]
  case pause => rw [step_of_event hi, deliver, pause_eq]
  case stop => exact ⟨_, step_of_event hi, getV_resetCpu s, fun _ _ => BitVec.getLsbD_zero, rfl⟩
  case setClockRate => rw [step_of_event hi, deliver, setClockRate_eq]
  case observeFrames => rw [step_of_event hi, deliver, observeFrames]

/-! ### Ticks while not Running -/

/-- Settles O59: neither clock's tick takes a step unless Running. -/
theorem noTickStepsUnlessRunning : Obligations.NoTickStepsUnlessRunning := by
  intro s hr hi
  obtain hiclk | htclk := or_assoc.mpr hi
  · have hidle : s.ticking = false := Bool.eq_false_iff.mpr fun h => hr ((State.ticking_eq_true s).mp h).1
    exact step_of_idle_tick hiclk hidle
  · have hhead : s.inputs.headD .iclk = .tclk := by rw [List.headD_eq_head?_getD, htclk, Option.getD_some]
    rw [step_eq_deliver, hhead, deliver, timerTick_of_not_running (s := { s with inputs := s.inputs.tail }) hr]

end Sys2Proof.Machine
end
